-- ==== Sys2Proof/Word.lean ====
section
/-!
DEFINITION. The word types of the Intcode core (`00_scope.md` R4, R6): a cell is a member of `I64`, an index is a
member of `U64`. Both are held as 64-bit vectors, which are in bijection with those ranges: a cell is read
through `BitVec.toInt`, an index through `BitVec.toNat`. Nothing in the model ever takes a bit field of either.
-/

namespace Sys2Proof

/-- R4 `CELL`, R6 `I64`: a signed 64-bit integer, its value being `toInt`. -/
abbrev Cell := BitVec 64

/-- R4 `PCW`, R6 `U64`: an unsigned 64-bit index, its value being `toNat`. -/
abbrev Addr := BitVec 64

/-- R6 `I64_MIN`. -/
def i64Min : Int := -9223372036854775808

/-- R6 `I64_MAX`. -/
def i64Max : Int := 9223372036854775807

/-- R6 `U64_MAX`. -/
def u64Max : Nat := 18446744073709551615

/-- R6: `v` is a member of `I64`. -/
abbrev InI64 (v : Int) : Prop := i64Min ≤ v ∧ v ≤ i64Max

/-- The cell whose signed value is congruent to `v` modulo 2^64: `v` itself when `v` is in `I64`. -/
abbrev cellOfInt (v : Int) : Cell := BitVec.ofInt 64 v

end Sys2Proof
end

