-- ==== Sys2Proof/Config.lean ====
section
/-!
DEFINITION. The implementation parameters of `00_scope.md` R4. A parameter that is OPEN there, or that the source asks to
keep configurable, is a field of `Params`, an argument of the model. They are not state (`10_state.md` R22). The rest
are constants.
-/

namespace Sys2Proof

/-- R4 `OVERFLOW_MODE`: what a result that does not fit `CELL`, or `pc + 1` at `U64_MAX`, does. -/
inductive OverflowMode where
  | fault
  | wrap
  deriving DecidableEq, Repr

/-- R4: the four OPEN parameters, where `none` is "unbounded", and the two constants of the out-of-scope channel-backed
queue, which the source gives "historically" and asks to preserve as a configurable parameter (U9). -/
structure Params where
  /-- `OVERFLOW_MODE` (R100, R13). -/
  overflow : OverflowMode
  /-- `MEM_CAPACITY`: the number of cells the memory can physically hold (R46). -/
  memCapacity : Option Nat
  /-- `IQ_DEPTH`: the depth of the input FIFO (R153). -/
  iqDepth : Option Nat
  /-- `OQ_DEPTH`: the depth of the output FIFO (R113). -/
  oqDepth : Option Nat
  /-- `CHANNEL_CAPACITY`. No rule of the core reads it. -/
  channelCapacity : Nat
  /-- `CHANNEL_TIMEOUT`, in seconds. No rule of the core reads it. -/
  channelTimeoutSeconds : Nat
  deriving DecidableEq, Repr

/-- R4, column "value": the defaults of the OPEN parameters, and the source's historical channel constants. -/
def Params.defaults : Params :=
  { overflow := .fault
    memCapacity := none
    iqDepth := none
    oqDepth := none
    channelCapacity := 1024
    channelTimeoutSeconds := 5 }

/-- No parameter limits the memory or a queue, as the source requires of its own memory and local queue
(R46 "growth always succeeds", R113 "it always succeeds at once"). The overflow mode is left open. -/
def Params.Unbounded (p : Params) : Prop :=
  p.memCapacity = none ∧ p.iqDepth = none ∧ p.oqDepth = none

/-- R4 `OPCODE_RADIX`: `opcode = word mod 100`. -/
def opcodeRadix : Nat := 100

/-- R4 `MODE_RADIX`: one decimal digit per operand mode. -/
def modeRadix : Nat := 10

/-- R4 `N_OPERANDS_MAX`: the largest arity in the opcode table. -/
def maxOperands : Nat := 3

end Sys2Proof
end

