-- ==== Sys2Proof/Syntax.lean ====
section
/-!
DEFINITION. The instructions as syntax (`30_encoding.md` R59, R63, R64): one constructor per row of the opcode map,
each operand carrying its mode field and its raw word.
-/

namespace Sys2Proof

/-- R51, R55: the three addressing modes. -/
inductive Mode where
  /-- Mode digit 0: the raw word is an address. -/
  | position
  /-- Mode digit 1: the raw word is the value (for a write operand: the same as Position, R62). -/
  | immediate
  /-- Mode digit 2: the raw word plus `rb` is an address. -/
  | relative
  deriving DecidableEq, Repr

/-- The mode digit of one operand as it stands in the instruction word. A digit 3 to 9 is kept, not refused: it is an
error only when, and at the moment when, its operand is consumed (R56, R66). -/
inductive ModeField where
  | known (m : Mode)
  | unrecognized (digit : Nat)
  deriving DecidableEq, Repr

/-- R59: one operand of an instruction, before it is resolved: its mode field and its raw word. -/
structure Operand where
  mode : ModeField
  raw : Cell
  deriving DecidableEq, Repr

/-- R64: the ten operations of the opcode map. Operand names are the table's: `a`, `b` signed-value, `w`
write-address, `p` unsigned (jump target). -/
inductive Instr where
  /-- ADD, opcode 1, format F3. -/
  | add (a b w : Operand)
  /-- MUL, opcode 2, format F3. -/
  | mul (a b w : Operand)
  /-- IN, opcode 3, format F1W. -/
  | inp (w : Operand)
  /-- OUT, opcode 4, format F1R. -/
  | out (a : Operand)
  /-- JT, opcode 5, format F2J. -/
  | jt (a p : Operand)
  /-- JF, opcode 6, format F2J. -/
  | jf (a p : Operand)
  /-- LT, opcode 7, format F3. -/
  | lt (a b w : Operand)
  /-- EQ, opcode 8, format F3. -/
  | eq (a b w : Operand)
  /-- ARB, opcode 9, format F1R. -/
  | arb (a : Operand)
  /-- HLT, opcode 99, format F0. -/
  | hlt
  deriving DecidableEq, Repr

/-- R63: the operands of an instruction in reading order. -/
def Instr.operands : Instr → List Operand
  | .add a b w => [a, b, w]
  | .mul a b w => [a, b, w]
  | .inp w => [w]
  | .out a => [a]
  | .jt a p => [a, p]
  | .jf a p => [a, p]
  | .lt a b w => [a, b, w]
  | .eq a b w => [a, b, w]
  | .arb a => [a]
  | .hlt => []

end Sys2Proof
end

