-- ==== Sys2Proof/WellFormed.lean ====
section
/-!
DEFINITION. When an instruction is well formed: every mode field it has holds one of the three modes
(`30_encoding.md` R51 "each `M` in 0..2"). Immediate mode on a write operand is well formed (R62, R67 (b)), and so is
every raw word.
-/

namespace Sys2Proof

/-- R51: the mode digit is 0, 1 or 2. -/
def ModeField.wf : ModeField → Bool
  | .known _ => true
  | .unrecognized _ => false

/-- An operand is well formed when its mode digit is. -/
def Operand.wf (o : Operand) : Bool := o.mode.wf

/-- Every operand the instruction has is well formed. -/
def Instr.wf (i : Instr) : Bool := i.operands.all Operand.wf

end Sys2Proof
end

