-- ==== Sys2Proof/Decode.lean ====
section
/-!
DEFINITION. The decoder and, after it, the encoder. The encoding is decimal (`30_encoding.md` R51): the opcode is the
instruction word modulo 100, the mode digits follow above it, lowest first. Both directions are written from the one
table `Opcode.code` (R64) and the one digit table `Mode.digit` (R51).
-/

namespace Sys2Proof

/-- R64: the rows of the opcode map. -/
inductive Opcode where
  | add | mul | inp | out | jt | jf | lt | eq | arb | hlt
  deriving DecidableEq, Repr

/-- R64: the opcode column. -/
def Opcode.code : Opcode → Nat
  | .add => 1
  | .mul => 2
  | .inp => 3
  | .out => 4
  | .jt => 5
  | .jf => 6
  | .lt => 7
  | .eq => 8
  | .arb => 9
  | .hlt => 99

/-- R50: the number of operand words. -/
def Opcode.arity : Opcode → Nat
  | .add | .mul | .lt | .eq => 3
  | .jt | .jf => 2
  | .inp | .out | .arb => 1
  | .hlt => 0

/-- Every row of the opcode map, in the table's order. -/
def Opcode.all : List Opcode := [.add, .mul, .inp, .out, .jt, .jf, .lt, .eq, .arb, .hlt]

/-- The row an opcode value selects, if any (R64, R65). -/
def Opcode.ofCode (n : Nat) : Option Opcode := Opcode.all.find? fun o => o.code == n

/-- R51, R55: the mode digits. -/
def Mode.digit : Mode → Nat
  | .position => 0
  | .immediate => 1
  | .relative => 2

/-- R55: the mode field a decimal digit stands for. -/
def modeOfDigit (d : Nat) : ModeField :=
  if d = 0 then .known .position
  else if d = 1 then .known .immediate
  else if d = 2 then .known .relative
  else .unrecognized d

/-- R54: `opcode <- word mod 100`. -/
def opcodeDigits (word : Nat) : Nat := word % opcodeRadix

/-- R54, R55, R57: the mode field of operand `k` (counted from 0): the digit that `k` divisions of `word div 100` by
ten leave lowest. An exhausted sequence gives digit 0, which is Position. -/
def modeFieldAt (word k : Nat) : ModeField := modeOfDigit (word / opcodeRadix / modeRadix ^ k % modeRadix)

/-- Why a list of cells is not an instruction. -/
inductive DecodeError where
  /-- R52: the instruction word is negative. -/
  | negativeWord
  /-- R65: `word mod 100` is 0 or in 10..98. -/
  | unrecognizedOpcode (opcode : Nat)
  /-- The list ends before the instruction does. The machine never meets this: its memory has no end. -/
  | truncated
  deriving DecidableEq, Repr

/-- R52, R54, R64, R65: which row the instruction word selects. The sign is looked at first. -/
def selectOpcode (word : Cell) : Except DecodeError Opcode :=
  if word.toInt < 0 then .error .negativeWord
  else
    match Opcode.ofCode (opcodeDigits word.toNat) with
    | some o => .ok o
    | none => .error (.unrecognizedOpcode (opcodeDigits word.toNat))

/-- The instruction of row `o` whose mode digits stand in `word` and whose raw words are `r1`, `r2`, `r3`, in reading
order; digits and raw words that the row's arity does not reach are not looked at (R56, R63). -/
def assemble (o : Opcode) (word : Nat) (r1 r2 r3 : Cell) : Instr :=
  let o1 : Operand := ⟨modeFieldAt word 0, r1⟩
  let o2 : Operand := ⟨modeFieldAt word 1, r2⟩
  let o3 : Operand := ⟨modeFieldAt word 2, r3⟩
  match o with
  | .add => .add o1 o2 o3
  | .mul => .mul o1 o2 o3
  | .inp => .inp o1
  | .out => .out o1
  | .jt => .jt o1 o2
  | .jf => .jf o1 o2
  | .lt => .lt o1 o2 o3
  | .eq => .eq o1 o2 o3
  | .arb => .arb o1
  | .hlt => .hlt

/-- The instruction that the instruction word and the three cells after it stand for. -/
def decodeWords (word r1 r2 r3 : Cell) : Except DecodeError Instr :=
  match selectOpcode word with
  | .ok o => .ok (assemble o word.toNat r1 r2 r3)
  | .error e => .error e

/-- Decoding a list of cells: the instruction at its head and the cells after it (R50, R68). -/
def decode : List Cell → Except DecodeError (Instr × List Cell)
  | [] => .error .truncated
  | word :: rest =>
    match selectOpcode word with
    | .error e => .error e
    | .ok o =>
      if rest.length < o.arity then .error .truncated
      else
        .ok (assemble o word.toNat (rest.getD 0 0) (rest.getD 1 0) (rest.getD 2 0), rest.drop o.arity)

/-! ## The encoder -/

/-- The row of an instruction. -/
def Instr.opcode : Instr → Opcode
  | .add .. => .add
  | .mul .. => .mul
  | .inp .. => .inp
  | .out .. => .out
  | .jt .. => .jt
  | .jf .. => .jf
  | .lt .. => .lt
  | .eq .. => .eq
  | .arb .. => .arb
  | .hlt => .hlt

/-- The decimal digit of a mode field. -/
def ModeField.digit : ModeField → Nat
  | .known m => m.digit
  | .unrecognized d => d

/-- The decimal number whose digits are the operands' mode digits, the first operand's lowest (R51). -/
def modeNumber : List Operand → Nat
  | [] => 0
  | o :: os => o.mode.digit + modeRadix * modeNumber os

/-- R51: the canonical instruction word, `opcode + 100*M1 + 1000*M2 + 10000*M3`. -/
def Instr.word (i : Instr) : Nat := i.opcode.code + opcodeRadix * modeNumber i.operands

/-- R50, R63: the cells of an instruction: its word, then the raw word of each operand in reading order. -/
def encode (i : Instr) : List Cell := BitVec.ofNat 64 i.word :: i.operands.map Operand.raw

/-! ## The opcode table's numbering -/

/-- Cell `k` of an instruction whose bits are `w`, `nbits` of them given: bit 0 is the least significant bit of the
first cell, and a later cell's bits count on from it. -/
def tableCell (nbits w k : Nat) : Cell := BitVec.ofNat 64 (w % 2 ^ nbits / 2 ^ (64 * k))

/-- The cells of the longest instruction (four), every bit above `nbits` being 0. -/
def tableCells (nbits w : Nat) : List Cell :=
  [tableCell nbits w 0, tableCell nbits w 1, tableCell nbits w 2, tableCell nbits w 3]

/-- The instruction the decoder reads from the bits `w`, numbered as the opcode table numbers them. -/
def decodeTableWord (nbits w : Nat) : Option Instr :=
  match decode (tableCells nbits w) with
  | .ok (i, _) => some i
  | .error _ => none

end Sys2Proof
end

