-- ==== Sys2Proof/Machine/Params.lean ====
section
/-!
DEFINITION. The parameters that `exec` and `step` run under: the defaults of `00_scope.md` R4.
-/

namespace Sys2Proof.Machine

open Sys2Proof

/-- R4: the parameters of the machine the host sees. Every operation below takes its parameters as an argument
(`…Under p`); `exec` and `step` are the operations under these. -/
def params : Params := Params.defaults

end Sys2Proof.Machine
end

