-- ==== Sys2Proof/Machine/State.lean ====
section
/-!
DEFINITION. The state of one machine, exactly the tuple of `10_state.md` R10, and the reasons a step can have no next
state. Plain data. `DEST` and `FAULT` are payloads of the execution state, as R18 and R19 ask.
-/

namespace Sys2Proof.Machine

open Sys2Proof

/-- `60_exceptions.md` R171: the seven fault causes of the hardware. Raising one is an ordinary next state of the
machine, `Faulted` (R176); it is not an outcome `fault` of the host's interface. -/
inductive Cause where
  /-- Code 1, R172. -/
  | negativeInstructionWord
  /-- Code 2, R173. -/
  | unrecognizedOpcode
  /-- Code 3, R174. -/
  | unrecognizedAddressingMode
  /-- Code 4, R175. -/
  | negativePointer
  /-- Code 5, R177. -/
  | negativeJumpTarget
  /-- Code 6, R178. -/
  | arithmeticOverflow
  /-- Code 7, R179. -/
  | pcOverflow
  deriving DecidableEq, Repr

/-- R17: the execution state register `STATE`, with `DEST` (R18) and `FAULT` (R19) as payloads. -/
inductive ExecState where
  | executing
  | needsInput (dest : Addr)
  | hasOutput
  | done
  | faulted (cause : Cause)
  deriving DecidableEq, Repr

/-- R20: the memory sequence. `len` is `MEMLEN`; `cells` lists the cells whose value is not 0, by rising address, so an
address that is not listed reads as 0 (R31). -/
structure Memory where
  cells : List (Nat × Cell)
  len : Nat
  deriving DecidableEq, Repr

/-- R10: the whole state of one machine. -/
structure State where
  /-- R12: the address of the next cell to consume. -/
  pc : Addr
  /-- R15: the relative base. -/
  rb : Cell
  /-- R20: `Mem` and `MEMLEN`. -/
  mem : Memory
  /-- R17, R18, R19: `STATE`, with `DEST` and `FAULT`. -/
  state : ExecState
  /-- R21: the input queue, front first. -/
  iq : List Cell
  /-- R21: the output queue, front first. -/
  oq : List Cell
  deriving DecidableEq, Repr

/-- Why a micro-step or a host's transaction has no next state. None of these can occur with the default parameters: each
comes from a finite value of an OPEN parameter of R4, for which the spec says that there is no step. Not the hardware's
faults (`Cause`). -/
inductive Fault where
  /-- R46: an access at an address at or above a finite `MEM_CAPACITY` is stuck. Raised by every read and write of
  memory. Safe: the model stops where the spec gives no step. -/
  | memoryExhausted (address : Nat)
  /-- R113: OUT with `OQ` at a finite `OQ_DEPTH` is held until the host removes a value; the state before the
  micro-step stands and the step can be tried again. Raised by OUT. Safe, for the same reason. -/
  | outputHeld
  /-- R153: InputEnqueue with `IQ` at a finite `IQ_DEPTH` holds the host until the core takes a value. Raised by
  `System.inputEnqueue` only, never by `step`. Safe, for the same reason. -/
  | inputHeld
  deriving DecidableEq, Repr

/-- Why the model gives no meaning. -/
inductive Refusal where
  /-- An arm of `exec` that has no meaning yet, by its mnemonic. No arm of this model answers with it. Safe. -/
  | notModelled (mnemonic : String)
  /-- R196: a micro-step of a core that shares a queue end with another core which is inside a Step. Raised by
  `System.tick` only, never by `step`. Safe: the source gives no meaning to such a run. -/
  | sharedQueueBusy
  /-- R5, R158: a host's transaction on a core that is inside a Step, which the host is assumed never to start. Raised by
  `System.load`, `System.snapshot`, `System.inputEnqueue`, `System.outputDequeue` and `System.peek` only, never by `step`.
  Safe, for the same reason. -/
  | coreInsideStep
  /-- There is no core of that number in the system. Raised by `System.tick` and by the host's transactions on a system,
  never by `step`. Safe. -/
  | noSuchCore
  deriving DecidableEq, Repr

/-- R24, R190: the machine after Load of the empty ROM: `pc` 0, `rb` 0, no cell, `Executing`, both queues empty. -/
def State.reset : State :=
  { pc := 0, rb := 0, mem := { cells := [], len := 0 }, state := .executing, iq := [], oq := [] }

end Sys2Proof.Machine
end

