-- ==== Sys2Proof/Machine/Ops.lean ====
section
/-!
DEFINITION. The named operations: the primitives of `00_scope.md` R7 over memory, registers and queues, and the fault
entry. A primitive can raise, so it answers with `Res`.
-/

namespace Sys2Proof.Machine

open Sys2Proof

/-! ## Results of a procedure -/

/-- What a procedure of the spec's pseudocode comes to: a value and the state it left; a `raise` and the state at the
raise (R176: what was done before it stays done); or no step at all. -/
inductive Res (α : Type) where
  | ok (value : α) (s : State)
  | raised (cause : Cause) (s : State)
  | stuck (reason : Fault)

/-- Doing one procedure after another: a `raise` and a stuck access end the sequence (R176). -/
def Res.andThen {α β : Type} : Res α → (α → State → Res β) → Res β
  | .ok v s, f => f v s
  | .raised c s, _ => .raised c s
  | .stuck r, _ => .stuck r

/-- R176 `raise <Cause>`: fault entry. `STATE <- Faulted`, `FAULT <- cause`, and nothing else. There is no return
from a fault (R182), so nothing stands beside it. -/
def State.raise (s : State) (c : Cause) : State := { s with state := .faulted c }

/-- The end of an instruction: its next state, the fault entry where it raised, or no step. -/
def Res.outcome : Res Unit → Host.Outcome State Fault Refusal
  | .ok _ s => .next s
  | .raised c s => .next (s.raise c)
  | .stuck r => .fault r

/-! ## Memory -/

/-- The value listed for address `a`, 0 where none is. -/
def lookupCell : List (Nat × Cell) → Nat → Cell
  | [], _ => 0
  | (b, v) :: rest, a => if a = b then v else lookupCell rest a

/-- The list without any entry for `a`. -/
def eraseCell : List (Nat × Cell) → Nat → List (Nat × Cell)
  | [], _ => []
  | (b, v) :: rest, a => if a = b then eraseCell rest a else (b, v) :: eraseCell rest a

/-- The list with the entry `(a, v)` put before the first entry of a higher address. -/
def insertCell : List (Nat × Cell) → Nat → Cell → List (Nat × Cell)
  | [], a, v => [(a, v)]
  | (b, w) :: rest, a, v => if a < b then (a, v) :: (b, w) :: rest else (b, w) :: insertCell rest a v

/-- R31: `M(a)`, the value a read of address `a` gives. -/
def Memory.read (m : Memory) (a : Nat) : Cell := lookupCell m.cells a

/-- R32, R33: the growth of an access at `a`: the sequence is at least `a + 1` long afterwards. The appended cells hold
0, so no entry is listed for them. -/
def Memory.touch (m : Memory) (a : Nat) : Memory := { m with len := max m.len (a + 1) }

/-- R33: growth, then `Mem[a] <- v`. Writing 0 removes the entry. -/
def Memory.write (m : Memory) (a : Nat) (v : Cell) : Memory :=
  { cells := if v = 0 then eraseCell m.cells a else insertCell (eraseCell m.cells a) a v
    len := max m.len (a + 1) }

/-- Every entry's address is above `lo` and they rise strictly; no entry holds 0. -/
def cellsCanonicalAbove : Option Nat → List (Nat × Cell) → Bool
  | _, [] => true
  | lo, (a, v) :: rest =>
    (match lo with
      | none => true
      | some b => b < a) && v != 0 && cellsCanonicalAbove (some a) rest

/-- The canonical form of a memory: addresses strictly rising, no entry equal to what an unlisted address reads as,
every entry inside the sequence, and `MEMLEN` at most 2^64 (R30). Equal memories are then equal data. -/
def Memory.wf (m : Memory) : Bool :=
  cellsCanonicalAbove none m.cells && m.cells.all (fun c => c.1 < m.len) && m.len ≤ u64Max + 1

/-- R46: whether the memory can physically hold address `a`. -/
def memHolds (p : Params) (a : Nat) : Bool :=
  match p.memCapacity with
  | none => true
  | some c => a < c

/-- R32 `MemRead(a, 1)`, with the stuck case of R46. -/
def memRead (p : Params) (a : Nat) (s : State) : Res Cell :=
  if memHolds p a then .ok (s.mem.read a) { s with mem := s.mem.touch a } else .stuck (.memoryExhausted a)

/-- R33 `MemWrite(a, 1, v)`, with the stuck case of R46. -/
def memWrite (p : Params) (a : Nat) (v : Cell) (s : State) : Res Unit :=
  if memHolds p a then .ok () { s with mem := s.mem.write a v } else .stuck (.memoryExhausted a)

/-! ## Range checks and the program counter -/

/-- R100 `fit64(v)`. -/
def fit64 (p : Params) (v : Int) (s : State) : Res Cell :=
  if InI64 v then .ok (cellOfInt v) s
  else
    match p.overflow with
    | .fault => .raised .arithmeticOverflow s
    | .wrap => .ok (cellOfInt v) s

/-- R13 `fitpc(v)`. -/
def fitPc (p : Params) (v : Nat) (s : State) : Res Addr :=
  if v ≤ u64Max then .ok (BitVec.ofNat 64 v) s
  else
    match p.overflow with
    | .fault => .raised .pcOverflow s
    | .wrap => .ok (BitVec.ofNat 64 v) s

/-- R53 `FetchWord()`: read the cell at `pc`, then advance `pc`. -/
def fetchWord (p : Params) (s : State) : Res Cell :=
  (memRead p s.pc.toNat s).andThen fun v s =>
    (fitPc p (s.pc.toNat + 1) s).andThen fun pc s => .ok v { s with pc := pc }

/-! ## Queues -/

/-- R112 `InDequeue()`. -/
def inDequeue (s : State) : Option Cell × State :=
  match s.iq with
  | [] => (none, s)
  | v :: rest => (some v, { s with iq := rest })

/-- Whether a queue of depth `depth` that holds `l` has room for one more value. -/
def hasRoom (depth : Option Nat) (l : List Cell) : Bool :=
  match depth with
  | none => true
  | some d => l.length < d

/-- R113 `OutEnqueue(v)`, with the hold of a full queue of finite depth. -/
def outEnqueue (p : Params) (v : Cell) (s : State) : Res Unit :=
  if hasRoom p.oqDepth s.oq then .ok () { s with oq := s.oq ++ [v] } else .stuck .outputHeld

end Sys2Proof.Machine
end

