-- ==== Sys2Proof/Machine/Operands.lean ====
section
/-!
DEFINITION. Operand resolution (`30_encoding.md` R55, R59 to R63). Each procedure consumes its operand's cell at `pc`:
the instruction word has been consumed before, and `pc` moves past each operand as it is reached (R12).

The raw word of an operand is the instruction's own field; consuming the cell moves `pc` and may grow the memory. The
machine's step takes those fields from the very cells that are consumed.
-/

namespace Sys2Proof.Machine

open Sys2Proof

/-- R55 `NextMode()`, on the mode field of the operand being consumed: a digit 3 to 9 raises here, before the raw word
is consumed (R66). -/
def nextMode (f : ModeField) (s : State) : Res Mode :=
  match f with
  | .known m => .ok m s
  | .unrecognized _ => .raised .unrecognizedAddressingMode s

/-- R175: an address below 0 raises; otherwise it is an index. -/
def checkPointer (v : Cell) (s : State) : Res Addr :=
  if v.toInt < 0 then .raised .negativePointer s else .ok v s

/-- R60, R62: `fit64(raw + rb)`. -/
def relativeSum (p : Params) (raw : Cell) (s : State) : Res Cell := fit64 p (raw.toInt + s.rb.toInt) s

/-- R60: the read of a Position or Relative operand at the signed address `v`. -/
def readAt (p : Params) (v : Cell) (s : State) : Res Cell :=
  (checkPointer v s).andThen fun a s => memRead p a.toNat s

/-- R60: the value of a read operand whose mode and raw word are known. -/
def readByMode (p : Params) (m : Mode) (raw : Cell) (s : State) : Res Cell :=
  match m with
  | .immediate => .ok raw s
  | .position => readAt p raw s
  | .relative => (relativeSum p raw s).andThen fun v s => readAt p v s

/-- R62: the address of a write operand whose mode and raw word are known. Immediate means Position. -/
def addressByMode (p : Params) (m : Mode) (raw : Cell) (s : State) : Res Addr :=
  match m with
  | .immediate => checkPointer raw s
  | .position => checkPointer raw s
  | .relative => (relativeSum p raw s).andThen fun v s => checkPointer v s

/-- The part common to all operand kinds: the mode digit, then the raw word's cell (R180 (4)). -/
def consumeOperand (p : Params) (o : Operand) (s : State) : Res Mode :=
  (nextMode o.mode s).andThen fun m s => (fetchWord p s).andThen fun _ s => .ok m s

/-- R60 `SignedOperand()`. -/
def signedOperand (p : Params) (o : Operand) (s : State) : Res Cell :=
  (consumeOperand p o s).andThen fun m s => readByMode p m o.raw s

/-- R61: a resolved jump target below 0 raises; otherwise it is an index. -/
def checkTarget (v : Cell) (s : State) : Res Addr :=
  if v.toInt < 0 then .raised .negativeJumpTarget s else .ok v s

/-- R61 `UnsignedOperand()`. -/
def unsignedOperand (p : Params) (o : Operand) (s : State) : Res Addr :=
  (signedOperand p o s).andThen fun v s => checkTarget v s

/-- R62 `WriteOperand()`. -/
def writeOperand (p : Params) (o : Operand) (s : State) : Res Addr :=
  (consumeOperand p o s).andThen fun m s => addressByMode p m o.raw s

/-- R63 format F3: `a` and `b` signed-value, `w` write-address, each fully resolved before the next is begun (R71). -/
def resolveF3 (p : Params) (a b w : Operand) (s : State) : Res (Cell × Cell × Addr) :=
  (signedOperand p a s).andThen fun x s =>
    (signedOperand p b s).andThen fun y s =>
      (writeOperand p w s).andThen fun d s => .ok (x, y, d) s

/-- R63 format F2J: `a` signed-value, `t` unsigned. -/
def resolveF2J (p : Params) (a t : Operand) (s : State) : Res (Cell × Addr) :=
  (signedOperand p a s).andThen fun x s =>
    (unsignedOperand p t s).andThen fun target s => .ok (x, target) s

/-- R63 format F1R: `a` signed-value. -/
def resolveF1R (p : Params) (a : Operand) (s : State) : Res Cell := signedOperand p a s

/-- R63 format F1W: `w` write-address. -/
def resolveF1W (p : Params) (w : Operand) (s : State) : Res Addr := writeOperand p w s

end Sys2Proof.Machine
end

