-- ==== Sys2Proof/Machine/Arithmetic.lean ====
section
/-!
DEFINITION. ADD and MUL (`41_arithmetic.md`).
-/

namespace Sys2Proof.Machine

open Sys2Proof

/-- The exact result passes `fit64` and is written; if it raises, no write is made (R92, R100). -/
def storeExact (p : Params) (d : Addr) (v : Int) (s : State) : Res Unit :=
  (fit64 p v s).andThen fun r s => memWrite p d.toNat r s

/-- R101: `MemWrite(w, 1, fit64(a + b))`. -/
def addUnder (p : Params) (a b w : Operand) (s : State) : Host.Outcome State Fault Refusal :=
  ((resolveF3 p a b w s).andThen fun o s => storeExact p o.2.2 (o.1.toInt + o.2.1.toInt) s).outcome

/-- R102: `MemWrite(w, 1, fit64(a * b))`. -/
def mulUnder (p : Params) (a b w : Operand) (s : State) : Host.Outcome State Fault Refusal :=
  ((resolveF3 p a b w s).andThen fun o s => storeExact p o.2.2 (o.1.toInt * o.2.1.toInt) s).outcome

/-- ADD (opcode 1, R101). -/
def execAdd (a b w : Operand) (s : State) : Host.Outcome State Fault Refusal := addUnder params a b w s

/-- MUL (opcode 2, R102). -/
def execMul (a b w : Operand) (s : State) : Host.Outcome State Fault Refusal := mulUnder params a b w s

end Sys2Proof.Machine
end

