-- ==== Sys2Proof/Machine/Flags.lean ====
section
/-!
DEFINITION. The machine has no flags (`10_state.md` R16). What stands in their place: the value a comparison writes to
memory (`44_comparisons.md` R132) and the condition a jump tests on an operand value (`43_jumps.md` R123).
-/

namespace Sys2Proof.Machine

open Sys2Proof

/-- R132: 1 when the relation holds, 0 when it does not. -/
def relationCell (holds : Bool) : Cell := if holds then 1 else 0

/-- R130: signed comparison in `Z`. -/
def lessThan (x y : Cell) : Bool := x.toInt < y.toInt

/-- R131: equality of the two values. -/
def equalTo (x y : Cell) : Bool := x == y

/-- R123: true means "not zero". -/
def isTrue (x : Cell) : Bool := x != 0

end Sys2Proof.Machine
end

