-- ==== Sys2Proof/Machine/Comparisons.lean ====
section
/-!
DEFINITION. LT and EQ (`44_comparisons.md`).
-/

namespace Sys2Proof.Machine

open Sys2Proof

/-- R130: write 1 if `a < b`, else 0. -/
def ltUnder (p : Params) (a b w : Operand) (s : State) : Host.Outcome State Fault Refusal :=
  ((resolveF3 p a b w s).andThen fun o s => memWrite p o.2.2.toNat (relationCell (lessThan o.1 o.2.1)) s).outcome

/-- R131: write 1 if `a = b`, else 0. -/
def eqUnder (p : Params) (a b w : Operand) (s : State) : Host.Outcome State Fault Refusal :=
  ((resolveF3 p a b w s).andThen fun o s => memWrite p o.2.2.toNat (relationCell (equalTo o.1 o.2.1)) s).outcome

/-- LT (opcode 7, R130). -/
def execLt (a b w : Operand) (s : State) : Host.Outcome State Fault Refusal := ltUnder params a b w s

/-- EQ (opcode 8, R131). -/
def execEq (a b w : Operand) (s : State) : Host.Outcome State Fault Refusal := eqUnder params a b w s

end Sys2Proof.Machine
end

