-- ==== Sys2Proof/Machine/Halt.lean ====
section
/-!
DEFINITION. HLT (`46_halt.md`).
-/

namespace Sys2Proof.Machine

open Sys2Proof

/-- HLT (opcode 99, R145): `STATE <- Done`, and nothing else. It reads no parameter. -/
def execHlt (s : State) : Host.Outcome State Fault Refusal := .next { s with state := .done }

end Sys2Proof.Machine
end

