-- ==== Sys2Proof/Machine/InputOutput.lean ====
section
/-!
DEFINITION. IN and OUT (`42_input_output.md`). The second half of IN is not an instruction's effect but the micro-step
of `NeedsInput` (`40_execution_cycle.md` R88, `deliverInput`).
-/

namespace Sys2Proof.Machine

open Sys2Proof

/-- R110, first half: `DEST <- w; STATE <- NeedsInput`. -/
def awaitInput (d : Addr) (s : State) : State := { s with state := .needsInput d }

/-- R110, second half; R88: take the front value of `IQ` and write it to `DEST`, or change nothing. -/
def deliverInput (p : Params) (d : Addr) (s : State) : Host.Outcome State Fault Refusal :=
  match inDequeue s with
  | (none, s) => .next s
  | (some v, s) =>
    ((memWrite p d.toNat v s).andThen fun _ s => .ok () { s with state := .executing }).outcome

/-- R110: IN, first half. -/
def inpUnder (p : Params) (w : Operand) (s : State) : Host.Outcome State Fault Refusal :=
  ((resolveF1W p w s).andThen fun d s => .ok () (awaitInput d s)).outcome

/-- R111: `OutEnqueue(a); STATE <- HasOutput`. -/
def outUnder (p : Params) (a : Operand) (s : State) : Host.Outcome State Fault Refusal :=
  ((resolveF1R p a s).andThen fun v s =>
    (outEnqueue p v s).andThen fun _ s => .ok () { s with state := .hasOutput }).outcome

/-- IN (opcode 3, R110). -/
def execInp (w : Operand) (s : State) : Host.Outcome State Fault Refusal := inpUnder params w s

/-- OUT (opcode 4, R111). -/
def execOut (a : Operand) (s : State) : Host.Outcome State Fault Refusal := outUnder params a s

end Sys2Proof.Machine
end

