-- ==== Sys2Proof/Machine/Jumps.lean ====
section
/-!
DEFINITION. JT and JF (`43_jumps.md`). The target is resolved, and its sign checked, whether or not the jump is taken
(R124).
-/

namespace Sys2Proof.Machine

open Sys2Proof

/-- R120: `pc` is overwritten when the condition holds; otherwise it keeps the address after the instruction. -/
def jumpIf (taken : Bool) (target : Addr) (s : State) : State := if taken then { s with pc := target } else s

/-- R121: `if a != 0: pc <- p`. -/
def jtUnder (p : Params) (a t : Operand) (s : State) : Host.Outcome State Fault Refusal :=
  ((resolveF2J p a t s).andThen fun o s => .ok () (jumpIf (isTrue o.1) o.2 s)).outcome

/-- R122: `if a = 0: pc <- p`. -/
def jfUnder (p : Params) (a t : Operand) (s : State) : Host.Outcome State Fault Refusal :=
  ((resolveF2J p a t s).andThen fun o s => .ok () (jumpIf (!isTrue o.1) o.2 s)).outcome

/-- JT (opcode 5, R121). -/
def execJt (a t : Operand) (s : State) : Host.Outcome State Fault Refusal := jtUnder params a t s

/-- JF (opcode 6, R122). -/
def execJf (a t : Operand) (s : State) : Host.Outcome State Fault Refusal := jfUnder params a t s

end Sys2Proof.Machine
end

