-- ==== Sys2Proof/Machine/RelativeBase.lean ====
section
/-!
DEFINITION. ARB (`45_relative_base.md`), the only instruction that writes `rb`.
-/

namespace Sys2Proof.Machine

open Sys2Proof

/-- R140: `rb <- fit64(rb + a)`; if it raises, `rb` is not changed. -/
def arbUnder (p : Params) (a : Operand) (s : State) : Host.Outcome State Fault Refusal :=
  ((resolveF1R p a s).andThen fun v s =>
    (fit64 p (s.rb.toInt + v.toInt) s).andThen fun r s => .ok () { s with rb := r }).outcome

/-- ARB (opcode 9, R140). -/
def execArb (a : Operand) (s : State) : Host.Outcome State Fault Refusal := arbUnder params a s

end Sys2Proof.Machine
end

