-- ==== Sys2Proof/Machine/Dispatch.lean ====
section
/-!
DEFINITION. The dispatch (`40_execution_cycle.md` R82), one arm per instruction. `exec i s` is the rest of an
instruction whose word has been consumed: its operands are resolved at `pc`, then its effect is applied (R81, R92).
-/

namespace Sys2Proof.Machine

open Sys2Proof

def exec (i : Instr) (s : State) : Host.Outcome State Fault Refusal :=
  match i with
  | .add a b w => Sys2Proof.Machine.execAdd a b w s
  | .mul a b w => Sys2Proof.Machine.execMul a b w s
  | .inp w => Sys2Proof.Machine.execInp w s
  | .out a => Sys2Proof.Machine.execOut a s
  | .jt a p => Sys2Proof.Machine.execJt a p s
  | .jf a p => Sys2Proof.Machine.execJf a p s
  | .lt a b w => Sys2Proof.Machine.execLt a b w s
  | .eq a b w => Sys2Proof.Machine.execEq a b w s
  | .arb a => Sys2Proof.Machine.execArb a s
  | .hlt => Sys2Proof.Machine.execHlt s

end Sys2Proof.Machine
end

