-- ==== Sys2Proof/Machine/Cycle.lean ====
section
/-!
DEFINITION. The execution cycle (`40_execution_cycle.md`): fetch and decode of the instruction at `pc`, the micro-step
of every execution state, the report of a micro-step, and the placing of an instruction where the next fetch finds it.
-/

namespace Sys2Proof.Machine

open Sys2Proof

/-- The cell at `k` cells past `pc`. -/
def cellFromPc (s : State) (k : Nat) : Cell := s.mem.read (s.pc + BitVec.ofNat 64 k).toNat

/-- The instruction whose word is `word` and whose raw words stand at `pc` (R50). Looking at those cells changes
nothing; they are consumed one by one when the instruction runs. -/
def decodeAtPc (word : Cell) (s : State) : Except DecodeError Instr :=
  decodeWords word (cellFromPc s 0) (cellFromPc s 1) (cellFromPc s 2)

/-- R52, R65: the fault cause of a word that selects no row. -/
def causeOfDecodeError : DecodeError → Cause
  | .negativeWord => .negativeInstructionWord
  | .unrecognizedOpcode _ => .unrecognizedOpcode
  | .truncated => .unrecognizedOpcode

/-- R81 `ExecuteOne()`: consume the instruction word, select the row, run the instruction. -/
def executeOne (p : Params) (run : Instr → State → Host.Outcome State Fault Refusal) (s : State) :
    Host.Outcome State Fault Refusal :=
  match fetchWord p s with
  | .ok word s =>
    match decodeAtPc word s with
    | .ok i => run i s
    | .error e => .next (s.raise (causeOfDecodeError e))
  | .raised c s => .next (s.raise c)
  | .stuck r => .fault r

/-- R84 `MicroStep()`: one pass of the loop inside the Step transaction. -/
def microStepWith (p : Params) (run : Instr → State → Host.Outcome State Fault Refusal) (s : State) :
    Host.Outcome State Fault Refusal :=
  match s.state with
  | .done => .next s
  | .faulted _ => .next s
  | .hasOutput => .next { s with state := .executing }
  | .needsInput d => deliverInput p d s
  | .executing => executeOne p run s

/-- The micro-step of the machine the host sees: parameters `params`, instructions `exec`. -/
def microStep (s : State) : Host.Outcome State Fault Refusal := microStepWith params exec s

/-- R85: the reports of a Step transaction. -/
inductive Report where
  | needsInput
  | hasOutput
  | done
  | fault (cause : Cause)
  deriving DecidableEq, Repr

/-- R84, R85: the report a micro-step from `s` to `t` yields, if it yields. A micro-step that ends in `NeedsInput` yields
only if it began there, with no value to take: the IN that enters it goes on to the dequeue (R83). -/
def yieldOf (s t : State) : Option Report :=
  match t.state with
  | .executing => none
  | .hasOutput => some .hasOutput
  | .done => some .done
  | .faulted c => some (.fault c)
  | .needsInput _ =>
    match s.state with
    | .needsInput _ => some .needsInput
    | _ => none

/-! ## Numeric codes -/

/-- R17: the numbers of the execution states. No rule depends on them. -/
def ExecState.code : ExecState → Nat
  | .executing => 0
  | .needsInput _ => 1
  | .hasOutput => 2
  | .done => 3
  | .faulted _ => 4

/-- R85: a report's number is its state's. -/
def Report.code : Report → Nat
  | .needsInput => 1
  | .hasOutput => 2
  | .done => 3
  | .fault _ => 4

/-- R171: the numbers of the fault causes. No rule depends on them. -/
def Cause.code : Cause → Nat
  | .negativeInstructionWord => 1
  | .unrecognizedOpcode => 2
  | .unrecognizedAddressingMode => 3
  | .negativePointer => 4
  | .negativeJumpTarget => 5
  | .arithmeticOverflow => 6
  | .pcOverflow => 7

/-! ## Placing an instruction -/

/-- The memory with `cells` written from index `a` on, indices counted modulo 2^64 as `pc` counts them. -/
def placeCells : List Cell → Addr → Memory → Memory
  | [], _, m => m
  | v :: rest, a, m => placeCells rest (a + 1) (m.write a.toNat v)

/-- The state with `cells` at `pc` and the core about to fetch there. -/
def placeAtPc (cells : List Cell) (s : State) : State :=
  { s with mem := placeCells cells s.pc s.mem, state := .executing }

end Sys2Proof.Machine
end

