-- ==== Sys2Proof/Machine/Step.lean ====
section
/-!
DEFINITION. The step of the machine: one micro-step (`40_execution_cycle.md` R84).
-/

namespace Sys2Proof.Machine

open Sys2Proof

/-- One micro-step. The Step transaction of R85, which repeats it until it yields and need not return (R91), is
`stepTransaction`. -/
def step (s : State) : Host.Outcome State Fault Refusal := microStep s

/-- The state with the instruction whose bits are `w` (numbered as the opcode table numbers them, the bits above `nbits`
zero, up to the four cells of the longest instruction) stored where `step` fetches its next instruction, at `pc`, and
the core in `Executing`, so that the very next step runs it. -/
def State.withFetchWord (s : State) (nbits w : Nat) : State := placeAtPc (tableCells nbits w) s

end Sys2Proof.Machine
end

