-- ==== Sys2Proof/Machine/Variants.lean ====
section
/-!
DEFINITION. The machine under any parameters (`00_scope.md` R4: a parameter marked OPEN "is an argument of the model"):
`exec` and `step` with the parameters as an argument.
-/

namespace Sys2Proof.Machine

open Sys2Proof

/-- R82 under the parameters `p`. -/
def execUnder (p : Params) (i : Instr) (s : State) : Host.Outcome State Fault Refusal :=
  match i with
  | .add a b w => addUnder p a b w s
  | .mul a b w => mulUnder p a b w s
  | .inp w => inpUnder p w s
  | .out a => outUnder p a s
  | .jt a t => jtUnder p a t s
  | .jf a t => jfUnder p a t s
  | .lt a b w => ltUnder p a b w s
  | .eq a b w => eqUnder p a b w s
  | .arb a => arbUnder p a s
  | .hlt => execHlt s

/-- R84 under the parameters `p`. -/
def stepUnder (p : Params) (s : State) : Host.Outcome State Fault Refusal := microStepWith p (execUnder p) s

end Sys2Proof.Machine
end

