-- ==== Sys2Proof/Machine/Pseudocode.lean ====
section
/-!
DEFINITION. The spec's own pseudocode of the execution cycle, written a second time and literally: `FetchDecode`
(`30_encoding.md` R71) works on the local `m` of remaining mode digits and reads each raw word when it is reached; it
answers an Operation (R72) that carries values and addresses only; `Execute` (`40_execution_cycle.md` R82) applies it.

`step` does the same work in another order: it first makes an instruction of the four cells at `pc`, then runs it. That
both are one machine is an obligation.
-/

namespace Sys2Proof.Machine

open Sys2Proof

/-- R72: the decoded Operation. -/
inductive Operation where
  | add (a b : Cell) (w : Addr)
  | multiply (a b : Cell) (w : Addr)
  | readInput (w : Addr)
  | writeOutput (a : Cell)
  | jumpIfTrue (a : Cell) (p : Addr)
  | jumpIfFalse (a : Cell) (p : Addr)
  | lessThan (a b : Cell) (w : Addr)
  | equals (a b : Cell) (w : Addr)
  | adjustRelativeBase (a : Cell)
  | halt
  deriving DecidableEq, Repr

/-- R55 `NextMode()` on the local `m`: the mode and the digits that remain. -/
def nextModeOf (m : Nat) (s : State) : Res (Mode × Nat) :=
  match m % 10 with
  | 0 => .ok (.position, m / 10) s
  | 1 => .ok (.immediate, m / 10) s
  | 2 => .ok (.relative, m / 10) s
  | _ => .raised .unrecognizedAddressingMode s

/-- R60 `SignedOperand()`, with the digits that remain. -/
def signedOperandOf (p : Params) (m : Nat) (s : State) : Res (Cell × Nat) :=
  (nextModeOf m s).andThen fun md s =>
    (fetchWord p s).andThen fun raw s =>
      match md.1 with
      | .immediate => .ok (raw, md.2) s
      | .position =>
        if raw.toInt < 0 then .raised .negativePointer s
        else (memRead p raw.toNat s).andThen fun v s => .ok (v, md.2) s
      | .relative =>
        (fit64 p (raw.toInt + s.rb.toInt) s).andThen fun a s =>
          if a.toInt < 0 then .raised .negativePointer s
          else (memRead p a.toNat s).andThen fun v s => .ok (v, md.2) s

/-- R61 `UnsignedOperand()`. -/
def unsignedOperandOf (p : Params) (m : Nat) (s : State) : Res (Addr × Nat) :=
  (signedOperandOf p m s).andThen fun v s =>
    if v.1.toInt < 0 then .raised .negativeJumpTarget s else .ok v s

/-- R62 `WriteOperand()`. -/
def writeOperandOf (p : Params) (m : Nat) (s : State) : Res (Addr × Nat) :=
  (nextModeOf m s).andThen fun md s =>
    (fetchWord p s).andThen fun raw s =>
      (match md.1 with
        | .position => Res.ok raw s
        | .immediate => .ok raw s
        | .relative => fit64 p (raw.toInt + s.rb.toInt) s).andThen fun w s =>
          if w.toInt < 0 then .raised .negativePointer s else .ok (w, md.2) s

/-- R71 `FetchDecode()`. -/
def fetchDecode (p : Params) (s : State) : Res Operation :=
  (fetchWord p s).andThen fun word s =>
    if word.toInt < 0 then .raised .negativeInstructionWord s
    else
      let m := word.toNat / 100
      match word.toNat % 100 with
      | 1 => (signedOperandOf p m s).andThen fun a s => (signedOperandOf p a.2 s).andThen fun b s =>
          (writeOperandOf p b.2 s).andThen fun w s => .ok (.add a.1 b.1 w.1) s
      | 2 => (signedOperandOf p m s).andThen fun a s => (signedOperandOf p a.2 s).andThen fun b s =>
          (writeOperandOf p b.2 s).andThen fun w s => .ok (.multiply a.1 b.1 w.1) s
      | 3 => (writeOperandOf p m s).andThen fun w s => .ok (.readInput w.1) s
      | 4 => (signedOperandOf p m s).andThen fun a s => .ok (.writeOutput a.1) s
      | 5 => (signedOperandOf p m s).andThen fun a s => (unsignedOperandOf p a.2 s).andThen fun t s =>
          .ok (.jumpIfTrue a.1 t.1) s
      | 6 => (signedOperandOf p m s).andThen fun a s => (unsignedOperandOf p a.2 s).andThen fun t s =>
          .ok (.jumpIfFalse a.1 t.1) s
      | 7 => (signedOperandOf p m s).andThen fun a s => (signedOperandOf p a.2 s).andThen fun b s =>
          (writeOperandOf p b.2 s).andThen fun w s => .ok (.lessThan a.1 b.1 w.1) s
      | 8 => (signedOperandOf p m s).andThen fun a s => (signedOperandOf p a.2 s).andThen fun b s =>
          (writeOperandOf p b.2 s).andThen fun w s => .ok (.equals a.1 b.1 w.1) s
      | 9 => (signedOperandOf p m s).andThen fun a s => .ok (.adjustRelativeBase a.1) s
      | 99 => .ok .halt s
      | _ => .raised .unrecognizedOpcode s

/-- R82 `Execute(op)`. -/
def Operation.execute (p : Params) (op : Operation) (s : State) : Res Unit :=
  match op with
  | .add a b w => (fit64 p (a.toInt + b.toInt) s).andThen fun v s => memWrite p w.toNat v s
  | .multiply a b w => (fit64 p (a.toInt * b.toInt) s).andThen fun v s => memWrite p w.toNat v s
  | .lessThan a b w => memWrite p w.toNat (if a.toInt < b.toInt then 1 else 0) s
  | .equals a b w => memWrite p w.toNat (if a.toInt = b.toInt then 1 else 0) s
  | .adjustRelativeBase a => (fit64 p (s.rb.toInt + a.toInt) s).andThen fun v s => .ok () { s with rb := v }
  | .jumpIfTrue a t => .ok () (if a.toInt ≠ 0 then { s with pc := t } else s)
  | .jumpIfFalse a t => .ok () (if a.toInt = 0 then { s with pc := t } else s)
  | .readInput w => .ok () { s with state := .needsInput w }
  | .writeOutput a => (outEnqueue p a s).andThen fun _ s => .ok () { s with state := .hasOutput }
  | .halt => .ok () { s with state := .done }

/-- R84 `MicroStep()` with R81 `ExecuteOne()`. -/
def microStepOf (p : Params) (s : State) : Res Unit :=
  match s.state with
  | .done => .ok () s
  | .faulted _ => .ok () s
  | .hasOutput => .ok () { s with state := .executing }
  | .needsInput d =>
    match s.iq with
    | [] => .ok () s
    | v :: rest =>
      (memWrite p d.toNat v { s with iq := rest }).andThen fun _ s => .ok () { s with state := .executing }
  | .executing => (fetchDecode p s).andThen (Operation.execute p)

end Sys2Proof.Machine
end

