-- ==== Sys2Proof/Machine/HostInterface.lean ====
section
/-!
DEFINITION. The host's transactions on one core (`48_host_interface.md`): Load, Step, InputEnqueue, OutputDequeue, Run
and Peek, and the interactive protocol. Snapshot, which makes two machines share their queues, is in `Wiring.lean`.

Step and Run need not return (R91), so they run under fuel; exhausted fuel is "no answer", never a report. They take the
micro-step as an argument, so that they serve `step` and `stepUnder p` alike.
-/

namespace Sys2Proof.Machine

open Sys2Proof

/-! ## Load -/

/-- The listed cells of a ROM whose first cell stands at address `a`: those that are not 0. -/
def romCells : Nat → List Cell → List (Nat × Cell)
  | _, [] => []
  | a, v :: rest => if v = 0 then romCells (a + 1) rest else (a, v) :: romCells (a + 1) rest

/-- R151, R190 `Load(ROM)`: every piece of state at its reset value (R24), the ROM copied into memory. Total. -/
def State.load (rom : List Cell) : State :=
  { pc := 0, rb := 0, mem := { cells := romCells 0 rom, len := rom.length }, state := .executing, iq := [], oq := [] }

/-! ## Step -/

/-- What a Step transaction comes to within some fuel. -/
inductive StepResult where
  /-- A micro-step yielded this report, leaving this state (R85). -/
  | reported (r : Report) (s : State)
  /-- No report within the fuel (R91). -/
  | noAnswer
  /-- The core has no micro-step in this state, for a finite parameter (R46, R113). -/
  | held (reason : Fault) (s : State)
  /-- An instruction without a meaning. -/
  | refused (reason : Refusal)
  deriving DecidableEq, Repr

/-- R85 `Step()`: micro-steps until one yields, at most `fuel` of them. -/
def stepTransaction (micro : State → Host.Outcome State Fault Refusal) : Nat → State → StepResult
  | 0, _ => .noAnswer
  | fuel + 1, s =>
    match micro s with
    | .next t =>
      match yieldOf s t with
      | some r => .reported r t
      | none => stepTransaction micro fuel t
    | .fault r => .held r s
    | .refused r => .refused r

/-! ## Queues, as the host sees them -/

/-- R153 `InputEnqueue(v)`: the value goes to the back of `IQ`, in every execution state. `none`: the host is held, the
queue being full at a finite `IQ_DEPTH`. -/
def inputEnqueueUnder (p : Params) (v : Cell) (s : State) : Option State :=
  if hasRoom p.iqDepth s.iq then some { s with iq := s.iq ++ [v] } else none

/-- R153 for the machine of `params`. -/
def inputEnqueue (v : Cell) (s : State) : Option State := inputEnqueueUnder params v s

/-- R154 `OutputDequeue()`: the front of `OQ`, or `none` for `Empty`, in every execution state. -/
def outputDequeue (s : State) : Option Cell × State :=
  match s.oq with
  | [] => (none, s)
  | v :: rest => (some v, { s with oq := rest })

/-! ## Run -/

/-- R155: how Run fails. Both are errors of the host's procedure, not states of the core. -/
inductive RunError where
  | runNeedsInput
  | fault (cause : Cause)
  deriving DecidableEq, Repr

/-- What Run comes to within some fuel, with the state it leaves. -/
inductive RunResult where
  | ok (s : State)
  | error (e : RunError) (s : State)
  | noAnswer
  | held (reason : Fault) (s : State)
  | refused (reason : Refusal)
  deriving DecidableEq, Repr

/-- R155 `Run()`: Step until Done, at most `steps` Steps of at most `fuel` micro-steps each. Outputs stay in `OQ`. -/
def runTransaction (micro : State → Host.Outcome State Fault Refusal) (fuel : Nat) : Nat → State → RunResult
  | 0, _ => .noAnswer
  | steps + 1, s =>
    match stepTransaction micro fuel s with
    | .reported .done t => .ok t
    | .reported .hasOutput t => runTransaction micro fuel steps t
    | .reported .needsInput t => .error .runNeedsInput t
    | .reported (.fault c) t => .error (.fault c) t
    | .noAnswer => .noAnswer
    | .held r t => .held r t
    | .refused r => .refused r

/-! ## Peek -/

/-- R156 `Peek()`: `(MEMLEN, Mem[0 .. MEMLEN-1], pc, rb)`. A function of the state, so it changes nothing. -/
def peek (s : State) : Nat × List Cell × Addr × Cell :=
  (s.mem.len, (List.range s.mem.len).map s.mem.read, s.pc, s.rb)

/-! ## The interactive protocol -/

/-- R159: the interactive loop, with the host's choices given ahead as a list. Answers the values dequeued, in order, with
the last report and the state it left: at Done, at a fault, or at a `NeedsInput` for which no choice is left. -/
def interact (micro : State → Host.Outcome State Fault Refusal) (p : Params) (fuel : Nat) :
    Nat → List Cell → State → Option (List Cell × Report × State)
  | 0, _, _ => none
  | steps + 1, choices, s =>
    match stepTransaction micro fuel s with
    | .reported .hasOutput t =>
      match outputDequeue t with
      | (some v, u) =>
        match interact micro p fuel steps choices u with
        | some (vs, r, z) => some (v :: vs, r, z)
        | none => none
      | (none, _) => none
    | .reported .needsInput t =>
      match choices with
      | [] => some ([], .needsInput, t)
      | v :: rest =>
        match inputEnqueueUnder p v t with
        | some u => interact micro p fuel steps rest u
        | none => none
    | .reported r t => some ([], r, t)
    | .noAnswer => none
    | .held _ _ => none
    | .refused _ => none

end Sys2Proof.Machine
end

