-- ==== Sys2Proof/Machine/Wiring.lean ====
section
/-!
DEFINITION. Several cores and the queues between them (`48_host_interface.md` R157, R163 to R166;
`70_reset_and_hazards.md` R196), under any parameters. A core keeps its own `pc`, `rb`, memory and execution state; its
two queue ends name queues of the system, so that two cores can be linked (the output of one is the input of the next)
or, after Snapshot, share both their queues. A system also holds which of its cores are inside a Step: a core that shares
a queue end with one of them is given no step (R196), and the host starts no transaction on it (R5, R158), but for the
dequeue that lifts a hold (R113).
-/

namespace Sys2Proof.Machine

open Sys2Proof

/-- What one core owns (R163), and which queue each of its two ends is attached to. -/
structure Node where
  pc : Addr
  rb : Cell
  mem : Memory
  state : ExecState
  /-- The queue it dequeues from. -/
  inQ : Nat
  /-- The queue it enqueues to. -/
  outQ : Nat
  /-- R85, R196: a Step of this core has begun and has not reported yet. -/
  inStep : Bool
  deriving DecidableEq, Repr

/-- R166: cores connected only by queues. A core's identity is its position. -/
structure System where
  nodes : List Node
  queues : List (List Cell)
  deriving DecidableEq, Repr

/-- The values in queue `q`, front first. -/
def System.queue (sys : System) (q : Nat) : List Cell := sys.queues.getD q []

/-- The machine that core `n` is: its own state and the two queues it is attached to. -/
def System.view (sys : System) (n : Node) : State :=
  { pc := n.pc, rb := n.rb, mem := n.mem, state := n.state, iq := sys.queue n.inQ, oq := sys.queue n.outQ }

/-! ## Depths -/

/-- The smaller of two depths, `none` being "unbounded". -/
def minDepth : Option Nat → Option Nat → Option Nat
  | none, e => e
  | some d, none => some d
  | some d, some e => some (min d e)

/-- R4, R166: the depth of queue `q`. A queue that a core takes from is bounded by `IQ_DEPTH`, one that a core appends to
by `OQ_DEPTH`; a queue that links two cores is both. DESIGN CHOICE, log entry 19. -/
def System.depth (p : Params) (sys : System) (q : Nat) : Option Nat :=
  minDepth (if sys.nodes.any (fun n => n.inQ == q) then p.iqDepth else none)
    (if sys.nodes.any (fun n => n.outQ == q) then p.oqDepth else none)

/-- The parameters a core runs under: its output queue has the depth of the queue it is attached to. -/
def System.paramsOf (p : Params) (sys : System) (n : Node) : Params := { p with oqDepth := sys.depth p n.outQ }

/-! ## Micro-steps -/

/-- The core `n` after its machine went from `s` to `t`: it is inside a Step unless that micro-step reported. -/
def Node.advance (n : Node) (s t : State) : Node :=
  { n with pc := t.pc, rb := t.rb, mem := t.mem, state := t.state, inStep := (yieldOf s t).isNone }

/-- The queues after core `n` went from machine `s` to machine `t`. A micro-step changes at most one of its two queues
(R93): it takes from the input queue or appends to the output queue. -/
def queuesAfter (queues : List (List Cell)) (n : Node) (s t : State) : List (List Cell) :=
  if t.oq = s.oq then queues.set n.inQ t.iq else queues.set n.outQ t.oq

/-- R196: two cores use the same end of one queue. A producer and a consumer of one queue do not. -/
def sharesEnd (n m : Node) : Bool := n.inQ == m.inQ || n.outQ == m.outQ

/-- R196: core `j` is another core than `k`, is inside a Step, and shares a queue end with the core `n` at `k`. -/
def System.blocks (sys : System) (k : Nat) (n : Node) (j : Nat) : Bool :=
  j != k &&
    match sys.nodes[j]? with
    | none => false
    | some m => m.inStep && sharesEnd m n

/-- R196: some other core that is inside a Step shares a queue end with the core `n` at `k`. -/
def System.contended (sys : System) (k : Nat) (n : Node) : Bool :=
  (List.range sys.nodes.length).any (sys.blocks k n)

/-- One micro-step of core `k`. It begins a Step of the core if none is begun, and ends it if it reports. Refused to a
second sharer of a queue end while another is inside a Step (R196). -/
def System.tick (p : Params) (sys : System) (k : Nat) : Host.Outcome System Fault Refusal :=
  match sys.nodes[k]? with
  | none => .refused .noSuchCore
  | some n =>
    if sys.contended k n then .refused .sharedQueueBusy
    else
      match stepUnder (sys.paramsOf p n) (sys.view n) with
      | .next t =>
        .next { nodes := sys.nodes.set k (n.advance (sys.view n) t)
                queues := queuesAfter sys.queues n (sys.view n) t }
      | .fault r => .fault r
      | .refused r => .refused r

/-- Micro-steps of the cores named by a schedule, in its order; one that has no next state leaves the system as it is.
R164: the relative speed of two cores is free, so every schedule is a run, but for what R196 refuses. -/
def System.runSchedule (p : Params) (sys : System) : List Nat → System
  | [] => sys
  | k :: rest =>
    match sys.tick p k with
    | .next sys' => System.runSchedule p sys' rest
    | .fault _ => System.runSchedule p sys rest
    | .refused _ => System.runSchedule p sys rest

/-! ## The host's transactions on a core of a system -/

/-- `f` of core `k`, if there is one. -/
def System.withCore {α : Type} (sys : System) (k : Nat) (f : Node → Host.Outcome α Fault Refusal) :
    Host.Outcome α Fault Refusal :=
  match sys.nodes[k]? with
  | none => .refused .noSuchCore
  | some n => f n

/-- R5, R158: the host's transaction `f` on core `k`. Transactions on one core are atomic, so none is taken while the core is
inside a Step. -/
def System.onCore {α : Type} (sys : System) (k : Nat) (f : Node → Host.Outcome α Fault Refusal) :
    Host.Outcome α Fault Refusal :=
  sys.withCore k fun n => if n.inStep then .refused .coreInsideStep else f n

/-- R113: core `n` stands at an OUT that a full queue holds. -/
def System.heldAtOut (p : Params) (sys : System) (n : Node) : Bool :=
  match stepUnder (sys.paramsOf p n) (sys.view n) with
  | .next _ => false
  | .fault r => r == .outputHeld
  | .refused _ => false

/-- A core freshly loaded (R24, R190), with its queue ends attached to these queues. -/
def Node.loaded (rom : List Cell) (inQ outQ : Nat) : Node :=
  { pc := 0, rb := 0, mem := (State.load rom).mem, state := .executing, inQ := inQ, outQ := outQ, inStep := false }

/-- How many queue ends of cores are attached to queue `q`. -/
def System.ends (sys : System) (q : Nat) : Nat := (sys.nodes.map Node.inQ ++ sys.nodes.map Node.outQ).count q

/-- R166: queue `q` belongs to the wiring: a core appends to it and a core takes from it. -/
def System.wired (sys : System) (q : Nat) : Bool :=
  sys.nodes.any (fun n => n.inQ == q) && sys.nodes.any (fun n => n.outQ == q)

/-- R190: the queue that a Load gives a core in place of its queue `q`, and the queues after it. A queue of the wiring is
handed in by the topology and kept. Otherwise the Load creates an empty one: in the place of `q` if no other core is
attached there, as a further queue if a clone is, which keeps `q`. Log entry 24. -/
def System.loadQueue (sys : System) (q : Nat) (queues : List (List Cell)) : Nat × List (List Cell) :=
  if sys.wired q then (q, queues)
  else if sys.ends q = 1 then (q, queues.set q [])
  else (queues.length, queues ++ [[]])

/-- R151, R190 `Load(ROM)` over core `k`: all of its state is discarded, whatever its execution state. -/
def System.load (rom : List Cell) (sys : System) (k : Nat) : Host.Outcome System Fault Refusal :=
  sys.onCore k fun n =>
    let input := sys.loadQueue n.inQ sys.queues
    let output := sys.loadQueue n.outQ input.2
    .next { nodes := sys.nodes.set k (Node.loaded rom input.1 output.1), queues := output.2 }

/-- R157 `Snapshot()` of core `k`: a further core with its own copy of `pc`, `rb`, memory and execution state, attached to
the same two queues. -/
def System.snapshot (sys : System) (k : Nat) : Host.Outcome System Fault Refusal :=
  sys.onCore k fun n => .next { sys with nodes := sys.nodes ++ [n] }

/-- R153, R166 `InputEnqueue(v)` on core `k`: the value goes to the back of the queue it takes from. -/
def System.inputEnqueue (p : Params) (sys : System) (k : Nat) (v : Cell) : Host.Outcome System Fault Refusal :=
  sys.onCore k fun n =>
    if hasRoom (sys.depth p n.inQ) (sys.queue n.inQ) then
      .next { sys with queues := sys.queues.set n.inQ (sys.queue n.inQ ++ [v]) }
    else .fault .inputHeld

/-- R154 `OutputDequeue()` on core `k`: the front of the queue it appends to, or `none` for `Empty`. It is the one transaction
that a core inside a Step allows, and only while a full queue holds its OUT: it is what lifts the hold (R113). -/
def System.outputDequeue (p : Params) (sys : System) (k : Nat) : Host.Outcome (Option Cell × System) Fault Refusal :=
  sys.withCore k fun n =>
    if n.inStep && !sys.heldAtOut p n then .refused .coreInsideStep
    else
      match sys.queue n.outQ with
      | [] => .next (none, sys)
      | v :: rest => .next (some v, { sys with queues := sys.queues.set n.outQ rest })

/-- R156 `Peek()` of core `k`. -/
def System.peek (sys : System) (k : Nat) : Host.Outcome (Nat × List Cell × Addr × Cell) Fault Refusal :=
  sys.onCore k fun n => .next (Machine.peek (sys.view n))

/-! ## Systems -/

/-- One machine as a system, between two Steps: core 0, its input queue 0 and its output queue 1. -/
def System.single (s : State) : System :=
  { nodes := [{ pc := s.pc, rb := s.rb, mem := s.mem, state := s.state, inQ := 0, outQ := 1, inStep := false }]
    queues := [s.iq, s.oq] }

/-- Core `k` of a ring of `n` cores, freshly loaded: it takes from queue `k` and appends to queue `(k + 1) mod n`. -/
def ringNode (rom : List Cell) (n k : Nat) : Node := Node.loaded rom k ((k + 1) % n)

/-- R166: the ring with one core for each phase-setting value. Queue `k` starts with the phase of core `k`, and queue 0
with "an initial zero" behind it. The external result channel is the host's: it dequeues from the last core. The seeds are
placed whatever the depths: the spec does not say what seeding does where a finite depth is smaller than the number of
seeds. DESIGN CHOICE, log entry 19. -/
def System.ring (rom : List Cell) (phases : List Cell) : System :=
  { nodes := (List.range phases.length).map (ringNode rom phases.length)
    queues := phases.mapIdx fun k v => if k = 0 then [v, 0] else [v] }

end Sys2Proof.Machine
end

