-- ==== Sys2Proof/Safety.lean ====
section
/-!
DEFINITION. The terms claims are stated in: the invariant of the reachable states, when the operands of an instruction
resolve without a fault, and what resolving them gives and leaves, said in closed form from `30_encoding.md` R60 to R62
and `20_memory.md` R31, R32 rather than through the machine's procedures.
-/

namespace Sys2Proof.Machine

open Sys2Proof

/-! ## The invariant -/

/-- R18: `0 <= DEST <= I64_MAX`, where `DEST` has a value. -/
def ExecState.DestOk : ExecState → Prop
  | .needsInput d => d.toNat ≤ i64Max.toNat
  | _ => True

/-- R26, as far as the types do not say it already: the memory has its canonical form, with `MEMLEN` at most 2^64, and
`DEST` is in its range. -/
def State.Inv (s : State) : Prop := s.mem.wf = true ∧ s.state.DestOk

/-- R26: `Done` and `Faulted`, the two absorbing values of `STATE`. -/
def ExecState.terminal : ExecState → Bool
  | .done => true
  | .faulted _ => true
  | _ => false

/-! ## Operands in closed form -/

/-- The exact address a memory operand names: `raw` in Position (and, for a write operand, Immediate) mode, `raw + rb` in
Relative mode (R60, R62). -/
def exactAddress (m : Mode) (raw rb : Cell) : Int :=
  match m with
  | .relative => raw.toInt + rb.toInt
  | .position => raw.toInt
  | .immediate => raw.toInt

/-- A read operand resolves to a value: its mode digit is 0, 1 or 2, and the address it names, if it names one, is neither
negative nor too large for a cell. -/
def Readable (o : Operand) (s : State) : Prop :=
  match o.mode with
  | .known .immediate => True
  | .known m => 0 ≤ exactAddress m o.raw s.rb ∧ exactAddress m o.raw s.rb ≤ i64Max
  | .unrecognized _ => False

/-- A write operand resolves to an address. -/
def Writable (o : Operand) (s : State) : Prop :=
  match o.mode with
  | .known m => 0 ≤ exactAddress m o.raw s.rb ∧ exactAddress m o.raw s.rb ≤ i64Max
  | .unrecognized _ => False

/-- The address a read operand reads memory at, if it does. -/
def readAddress (o : Operand) (s : State) : Option Nat :=
  match o.mode with
  | .known .immediate => none
  | .known m => some (exactAddress m o.raw s.rb).toNat
  | .unrecognized _ => none

/-- The address a write operand names. -/
def writeAddress (o : Operand) (s : State) : Nat :=
  match o.mode with
  | .known m => (exactAddress m o.raw s.rb).toNat
  | .unrecognized _ => 0

/-- The value of a read operand: the raw word in Immediate mode, `M` of its address otherwise. -/
def readValue (o : Operand) (s : State) : Cell :=
  match readAddress o s with
  | some a => s.mem.read a
  | none => o.raw

/-- The cell at `pc` is consumed (R53), where `pc + 1` does not pass `U64_MAX`. -/
def afterCell (s : State) : State := { s with pc := s.pc + 1, mem := s.mem.touch s.pc.toNat }

/-- The state after a read operand was resolved: its cell consumed, and the memory grown by its read (R32). -/
def afterRead (o : Operand) (s : State) : State :=
  match readAddress o s with
  | some a => { afterCell s with mem := (afterCell s).mem.touch a }
  | none => afterCell s

/-- `n` more cells can be consumed without `pc` passing `U64_MAX` (R13). -/
abbrev PcRoom (n : Nat) (s : State) : Prop := s.pc.toNat + n ≤ u64Max

/-- The operands of format F3 resolve. -/
def ReadyF3 (a b w : Operand) (s : State) : Prop := Readable a s ∧ Readable b s ∧ Writable w s ∧ PcRoom 3 s

/-- The operands of format F2J resolve; the target's value is not negative (R61). -/
def ReadyF2J (a t : Operand) (s : State) : Prop :=
  Readable a s ∧ Readable t s ∧ 0 ≤ (readValue t s).toInt ∧ PcRoom 2 s

/-- The operand of format F1R resolves. -/
def ReadyF1R (a : Operand) (s : State) : Prop := Readable a s ∧ PcRoom 1 s

/-- The operand of format F1W resolves. -/
def ReadyF1W (w : Operand) (s : State) : Prop := Writable w s ∧ PcRoom 1 s

/-- The state in which the effect of an F3 instruction is applied (R92): `pc` past its third operand. -/
def afterF3 (a b : Operand) (s : State) : State := afterCell (afterRead b (afterRead a s))

/-- The state in which the effect of an F2J instruction is applied: `pc` past its second operand. -/
def afterF2J (a t : Operand) (s : State) : State := afterRead t (afterRead a s)

/-- R46: the memory read that operand `o` makes, if it makes one, is below the capacity `c`. -/
def ReadsBelow (c : Nat) (o : Operand) (s : State) : Prop := ∀ a, readAddress o s = some a → a < c

/-! ## Faults in closed form -/

/-- R59: the three kinds of operand. -/
inductive OperandKind where
  | signed
  | unsigned
  | write
  deriving DecidableEq, Repr

/-- R63, R64: the operands of an instruction in reading order, each with its kind. -/
def operandsByKind : Instr → List (OperandKind × Operand)
  | .add a b w => [(.signed, a), (.signed, b), (.write, w)]
  | .mul a b w => [(.signed, a), (.signed, b), (.write, w)]
  | .inp w => [(.write, w)]
  | .out a => [(.signed, a)]
  | .jt a t => [(.signed, a), (.unsigned, t)]
  | .jf a t => [(.signed, a), (.unsigned, t)]
  | .lt a b w => [(.signed, a), (.signed, b), (.write, w)]
  | .eq a b w => [(.signed, a), (.signed, b), (.write, w)]
  | .arb a => [(.signed, a)]
  | .hlt => []

/-- R53, R13: the state at a raise of `PcOverflow`: the cell at `pc` is read, and `pc` keeps its value. -/
def stuckAtTop (s : State) : State := { s with mem := s.mem.touch s.pc.toNat }

/-- R180 (4): what is wrong with an address, the range of the sum before its sign. -/
def addressFault (v : Int) : Option Cause :=
  if InI64 v then if v < 0 then some .negativePointer else none else some .arithmeticOverflow

/-- R180 (4): the first thing wrong with one operand, with `OVERFLOW_MODE = fault`; and the state at the raise (R174, R175,
R177, R178, R179): the operand's cell is not looked at for a bad mode digit, is read but not passed where `pc` has no
room, is consumed for a bad address, and its memory read is made before a target's sign is looked at. -/
def operandFault (k : OperandKind) (o : Operand) (s : State) : Option (Cause × State) :=
  match o.mode with
  | .unrecognized _ => some (.unrecognizedAddressingMode, s)
  | .known m =>
    if PcRoom 1 s then
      match (if m = .immediate ∧ k ≠ .write then none else addressFault (exactAddress m o.raw s.rb)) with
      | some c => some (c, afterCell s)
      | none =>
        if k = .unsigned ∧ (readValue o s).toInt < 0 then some (.negativeJumpTarget, afterRead o s) else none
    else some (.pcOverflow, stuckAtTop s)

/-- The state after one operand was resolved without a fault. -/
def afterOperand (k : OperandKind) (o : Operand) (s : State) : State :=
  match k with
  | .write => afterCell s
  | .signed => afterRead o s
  | .unsigned => afterRead o s

/-- R180: the first fault of a list of operands, each taken completely before the next, and the state at the raise. -/
def firstFault : List (OperandKind × Operand) → State → Option (Cause × State)
  | [], _ => none
  | (k, o) :: rest, s =>
    match operandFault k o s with
    | some f => some f
    | none => firstFault rest (afterOperand k o s)

/-! ## Systems -/

/-- Every queue end of a core is attached to a queue of the system. -/
def System.Attached (sys : System) : Prop := ∀ n ∈ sys.nodes, n.inQ < sys.queues.length ∧ n.outQ < sys.queues.length

/-- R164, R165: every queue has at most one consumer and at most one producer, and every queue end is attached. -/
def System.WellWired (sys : System) : Prop :=
  (∀ (i j : Nat) (n m : Node), i ≠ j → sys.nodes[i]? = some n → sys.nodes[j]? = some m → sharesEnd n m = false) ∧
    sys.Attached

/-- A core that can move: it has not ended, it does not wait for a value that is not there, and its micro-step is neither
stuck nor held for a finite parameter. -/
def System.enabled (p : Params) (sys : System) (k : Nat) : Bool :=
  match sys.nodes[k]? with
  | none => false
  | some n =>
    (match n.state with
      | .done => false
      | .faulted _ => false
      | .needsInput _ => sys.queue n.inQ != []
      | .executing => true
      | .hasOutput => true) &&
    match stepUnder (sys.paramsOf p n) (sys.view n) with
    | .next _ => true
    | .fault _ => false
    | .refused _ => false

/-- No core can move: every one waits on an empty queue, is held, or has ended. -/
def System.Quiescent (p : Params) (sys : System) : Prop := ∀ k, sys.enabled p k = false

/-- The system, but for which cores are inside a Step. -/
def System.machines (sys : System) : System :=
  { sys with nodes := sys.nodes.map fun n => { n with inStep := false } }

/-- R196: no two cores that share a queue end are both inside a Step. -/
def System.Exclusive (sys : System) : Prop :=
  ∀ (i j : Nat) (n m : Node), i ≠ j → sys.nodes[i]? = some n → sys.nodes[j]? = some m → sharesEnd n m = true →
    n.inStep = false ∨ m.inStep = false

/-- What one micro-step of core `k` takes from queue `q`: the front value, if the core waits for one there. -/
def System.takes (p : Params) (sys : System) (k q : Nat) : List Cell :=
  match sys.tick p k, sys.nodes[k]? with
  | .next _, some n =>
    match n.state with
    | .needsInput _ => if n.inQ = q then (sys.queue q).take 1 else []
    | _ => []
  | _, _ => []

/-- What one micro-step of core `k` emits to queue `q`: the value an OUT enqueued. -/
def System.emits (p : Params) (sys : System) (k q : Nat) : List Cell :=
  match sys.tick p k, sys.nodes[k]? with
  | .next _, some n =>
    match stepUnder (sys.paramsOf p n) (sys.view n) with
    | .next t => if n.outQ = q then t.oq.drop (sys.view n).oq.length else []
    | _ => []
  | _, _ => []

/-- Everything taken from queue `q` along a schedule, in order. -/
def System.taken (p : Params) (q : Nat) : System → List Nat → List Cell
  | _, [] => []
  | sys, k :: rest => sys.takes p k q ++ System.taken p q (sys.runSchedule p [k]) rest

/-- Everything emitted to queue `q` along a schedule, in order. -/
def System.emitted (p : Params) (q : Nat) : System → List Nat → List Cell
  | _, [] => []
  | sys, k :: rest => sys.emits p k q ++ System.emitted p q (sys.runSchedule p [k]) rest

end Sys2Proof.Machine
end

