-- ==== Sys2Proof/Certificates/Slice0/Obligations.lean ====
section
/-!
DEFINITION. The statements for the provers. Each docstring names the sentence or the rule of spec/ it formalises. Where
one rests on a choice that the spec marks as its own decision, it says so and names the decision and the log entry.
-/

open Sys2Proof Sys2Proof.Machine

/-! ## Encoding -/

/-- Words written out digit by digit from the layout of `30_encoding.md` section 1, some of them the vectors E1, E3 to E5, E8
to E10 and E12 of `95_test_vectors.md`, decode to the instruction they stand for, or are rejected by name. That 31104 and
399 decode in spite of a digit 3 that no operand consumes rests on the spec's decision D4 (log entry 3). -/
def Obligations.WrittenOutWordsDecode : Prop :=
  decode [1002, 4, 3, 4] = .ok (.mul ⟨.known .position, 4⟩ ⟨.known .immediate, 3⟩ ⟨.known .position, 4⟩, []) ∧
  decode [21001, 5, 3, -1] = .ok (.add ⟨.known .position, 5⟩ ⟨.known .immediate, 3⟩ ⟨.known .relative, -1⟩, []) ∧
  decode [203, -2, 99] = .ok (.inp ⟨.known .relative, -2⟩, [99]) ∧
  decode [31104, 5, 99] = .ok (.out ⟨.known .immediate, 5⟩, [99]) ∧
  decode [1105, 7, 4] = .ok (.jt ⟨.known .immediate, 7⟩ ⟨.known .immediate, 4⟩, []) ∧
  decode [1006, 101, 0] = .ok (.jf ⟨.known .position, 101⟩ ⟨.known .immediate, 0⟩, []) ∧
  decode [1107, 3, 8, 5] = .ok (.lt ⟨.known .immediate, 3⟩ ⟨.known .immediate, 8⟩ ⟨.known .position, 5⟩, []) ∧
  decode [1008, 100, 16, 101] = .ok (.eq ⟨.known .position, 100⟩ ⟨.known .immediate, 16⟩ ⟨.known .position, 101⟩, []) ∧
  decode [209, 1] = .ok (.arb ⟨.known .relative, 1⟩, []) ∧
  decode [399, 7] = .ok (.hlt, [7]) ∧
  decode [304, 5] = .ok (.out ⟨.unrecognized 3, 5⟩, []) ∧
  decode [0, 1, 1, 1] = .error (.unrecognizedOpcode 0) ∧
  decode [310, 1, 1] = .error (.unrecognizedOpcode 10) ∧
  decode [-1, 1, 1, 1] = .error .negativeWord

/-- Decoding undoes encoding: for every well-formed instruction, with every raw word at every value of a cell and with any
cells behind it (`30_encoding.md` R50, R51, R63, R64). -/
def Obligations.DecodeUndoesEncode : Prop :=
  ∀ (i : Instr) (rest : List Cell), i.wf = true → decode (encode i ++ rest) = .ok (i, rest)

/-- Encoding gives back what was decoded, but for the digits no operand consumes: the operand cells are the same, and the
canonical word agrees with the decoded word in its lowest `2 + arity` digits (R51, R67). -/
def Obligations.EncodeUndoesDecode : Prop :=
  ∀ (cells rest : List Cell) (i : Instr), decode cells = .ok (i, rest) →
    ∃ word : Cell, cells = word :: (i.operands.map Operand.raw ++ rest) ∧
      ∃ canonical : Cell, encode i = canonical :: i.operands.map Operand.raw ∧
        canonical.toInt = word.toInt % 10 ^ (2 + i.operands.length)

/-- `30_encoding.md` sections 1, 2 and 4 (R51, R52, R54, R65): a negative word is rejected first; the opcode is the word
modulo 100; a value that is not a row's is rejected; the mode of operand `k`, counted from 0, is digit `k + 2` of the word
and its raw word is the `k`-th cell after it. That a row's opcode decodes whatever the word's other digits are is R56, the
spec's decision D4 (log entry 3). -/
def Obligations.DecodeReadsDecimalDigits : Prop :=
  ∀ word r1 r2 r3 : Cell,
    (word.toInt < 0 → decodeWords word r1 r2 r3 = .error .negativeWord) ∧
    (0 ≤ word.toInt →
      (∀ o : Opcode, (o.code : Int) = word.toInt % 100 →
        ∃ i, decodeWords word r1 r2 r3 = .ok i ∧ i.opcode = o ∧ i.operands.length = o.arity ∧
          ∀ (k : Nat) (q : Operand), i.operands[k]? = some q →
            q.mode = modeOfDigit (word.toInt / 10 ^ (k + 2) % 10).toNat ∧ [r1, r2, r3][k]? = some q.raw) ∧
      ((∀ o : Opcode, (o.code : Int) ≠ word.toInt % 100) →
        decodeWords word r1 r2 r3 = .error (.unrecognizedOpcode (word.toInt % 100).toNat)))

/-- R56, the spec's decision D4 (log entry 3): the digits above the last one an operand consumes are ignored, whatever
they are. Two words that agree in their lowest `2 + arity` digits are the same instruction. -/
def Obligations.UnconsumedDigitsAreIgnored : Prop :=
  ∀ (word word' r1 r2 r3 : Cell) (o : Opcode), selectOpcode word = .ok o → 0 ≤ word'.toInt →
    word'.toInt % 10 ^ (2 + o.arity) = word.toInt % 10 ^ (2 + o.arity) →
    decodeWords word' r1 r2 r3 = decodeWords word r1 r2 r3

/-! ## Memory -/

/-- R34, law P1: "for all addresses `a ≥ 0` and values `v`, writing `v` at `a` then reading `a` returns `v`, regardless
of prior Memory length; reading any never-written address returns 0". The second half: after Load and any sequence of
writes to other addresses, an address past the ROM reads as 0. -/
def Obligations.WriteThenReadReturnsValue : Prop :=
  (∀ (a : Addr) (v : Cell) (s t : State), memWrite params a.toNat v s = .ok () t →
    ∃ u, memRead params a.toNat t = .ok v u) ∧
  (∀ (a : Addr) (v : Cell) (s : State), ∃ t, memWrite params a.toNat v s = .ok () t) ∧
  ∀ (rom : List Cell) (writes : List (Addr × Cell)) (a : Addr), rom.length ≤ a.toNat → (∀ w ∈ writes, w.1 ≠ a) →
    ∃ u, memRead params a.toNat
      { State.load rom with mem := writes.foldl (fun m w => Memory.write m w.1.toNat w.2) (State.load rom).mem } = .ok 0 u

/-- R33: a write never faults; it grows the sequence to `a + 1` cells where it was shorter, with zeros in the new cells;
afterwards `M(a) = v` and every other address is unchanged; and the address an instruction's write operand resolves to
is in `0 .. I64_MAX`. -/
def Obligations.WriteChangesOneCell : Prop :=
  (∀ (a : Addr) (v : Cell) (s : State), ∃ t, memWrite params a.toNat v s = .ok () t ∧
    t.mem.len = (if s.mem.len ≤ a.toNat then a.toNat + 1 else s.mem.len) ∧
    t.mem.read a.toNat = v ∧
    (∀ x, x ≠ a.toNat → t.mem.read x = s.mem.read x) ∧
    (s.mem.wf = true → ∀ x, s.mem.len ≤ x → x ≠ a.toNat → t.mem.read x = 0) ∧
    t = { s with mem := t.mem }) ∧
  ∀ (o : Operand) (s t : State) (d : Addr), writeOperand params o s = .ok d t → d.toNat ≤ i64Max.toNat

/-- `20_memory.md` section 2, `MemRead`, with decision D22 (log entry 5): a read never faults, gives `M(a)`, changes no
cell's value, and raises `MEMLEN` to `a + 1` exactly where it was at most `a`. -/
def Obligations.ReadOnlyGrowsMemory : Prop :=
  ∀ (a : Addr) (s : State), ∃ t, memRead params a.toNat s = .ok (s.mem.read a.toNat) t ∧
    t.mem.len = (if s.mem.len ≤ a.toNat then a.toNat + 1 else s.mem.len) ∧
    (∀ x, t.mem.read x = s.mem.read x) ∧
    (s.mem.wf = true → s.mem.len ≤ a.toNat → s.mem.read a.toNat = 0) ∧
    t = { s with mem := t.mem }

/-- `20_memory.md` section 5, instruction-fetch coherence: a store is seen by every later fetch of its cell, from any state
whose cell there still reads as the store left it, with nothing needed in between. At `pc = U64_MAX` the fetch gives the
value in `wrap` mode; in `fault` mode it raises (decision D2, log entry 1). -/
def Obligations.StoreIsSeenByFetch : Prop :=
  ∀ (p : Params) (a : Addr) (v : Cell) (s t u : State), p.memCapacity = none → memWrite p a.toNat v s = .ok () t →
    u.mem.read a.toNat = t.mem.read a.toNat → u.pc = a →
    (PcRoom 1 u ∨ p.overflow = .wrap → fetchWord p u = .ok v (afterCell u)) ∧
    (¬ PcRoom 1 u → p.overflow = .fault → fetchWord p u = .raised .pcOverflow (stuckAtTop u))

/-! ## The invariant and reset -/

/-- R26: every micro-step keeps the invariant: the memory stays in its canonical form, with every listed cell inside
`MEMLEN` and `MEMLEN` at most 2^64, and `DEST` stays in `0 .. I64_MAX`. -/
def Obligations.StepKeepsInv : Prop :=
  ∀ s t : State, s.Inv → Sys2Proof.Machine.step s = .next t → t.Inv

/-- The reset state meets the invariant, and so does a machine loaded with any ROM that indices can reach. -/
def Obligations.ResetMeetsInv : Prop :=
  State.reset.Inv ∧ ∀ rom : List Cell, rom.length ≤ u64Max + 1 → (State.load rom).Inv

/-- `70_reset_and_hazards.md` section 1 and the table of `10_state.md` section 12: what Load leaves. The zero `pc` and the
empty queues are the spec's decision D10 (log entry 2). The reset state is Load of the empty ROM. Loading over a core of a
system, in whatever execution state, discards all of its state and leaves the other cores and what is in their queues
alone: it gives the core an empty queue of its own in place of each of its two, but for a queue of the wiring, which is
kept with what is in it. That a clone keeps the queue it shared is log entry 24. On a system of one machine it is the Load
of that machine. -/
def Obligations.LoadLeavesResetValues : Prop :=
  (∀ rom : List Cell,
    (State.load rom).pc = 0 ∧ (State.load rom).rb = 0 ∧ (State.load rom).state = .executing ∧
    (State.load rom).iq = [] ∧ (State.load rom).oq = [] ∧ (State.load rom).mem.len = rom.length ∧
    (∀ (a : Nat) (v : Cell), rom[a]? = some v → (State.load rom).mem.read a = v) ∧
    ∀ a : Nat, rom.length ≤ a → (State.load rom).mem.read a = 0) ∧
  State.reset = State.load [] ∧
  (∀ (rom : List Cell) (sys : System) (k : Nat) (n : Node), sys.Attached → sys.nodes[k]? = some n →
    n.inStep = false →
    ∃ (sys' : System) (m : Node), sys.load rom k = .next sys' ∧ sys'.nodes[k]? = some m ∧
      m.pc = 0 ∧ m.rb = 0 ∧ m.mem = (State.load rom).mem ∧ m.state = .executing ∧
      m.inStep = false ∧
      (∀ j, j ≠ k → sys'.nodes[j]? = sys.nodes[j]?) ∧ sys'.nodes.length = sys.nodes.length ∧ sys'.Attached ∧
      (∀ (j : Nat) (x : Node), j ≠ k → sys.nodes[j]? = some x →
        sys'.queue x.inQ = sys.queue x.inQ ∧ sys'.queue x.outQ = sys.queue x.outQ) ∧
      (sys.wired n.inQ = true → m.inQ = n.inQ ∧ sys'.queue m.inQ = sys.queue n.inQ) ∧
      (sys.wired n.outQ = true → m.outQ = n.outQ ∧ sys'.queue m.outQ = sys.queue n.outQ) ∧
      (sys.wired n.inQ = false → sys'.queue m.inQ = [] ∧ sys'.ends m.inQ = 1) ∧
      (sys.wired n.outQ = false → sys'.queue m.outQ = [] ∧ sys'.ends m.outQ = 1)) ∧
  ∀ (rom : List Cell) (s : State), (System.single s).load rom 0 = .next (System.single (State.load rom))

/-! ## The cycle -/

/-- R81: where the cells at `pc` decode to an instruction, the step is that instruction's `exec` in the state whose word
was consumed: `pc` one further, and the memory grown by the read of the word. -/
def Obligations.StepRunsDecodedInstr : Prop :=
  ∀ (s : State) (i : Instr), s.state = .executing → PcRoom 1 s →
    decodeWords (s.mem.read s.pc.toNat) (s.mem.read (s.pc + 1).toNat) (s.mem.read (s.pc + 2).toNat)
      (s.mem.read (s.pc + 3).toNat) = .ok i →
    Sys2Proof.Machine.step s = Sys2Proof.Machine.exec i (afterCell s)

/-- R65, R173: a non-negative word whose value modulo 100 is 0 or in 10..98 raises `UnrecognizedOpcode` after the word has
been consumed and before any operand or mode digit is looked at. What a raise leaves is decision D6 (log entry 4). -/
def Obligations.UnrecognizedOpcodeFaults : Prop :=
  ∀ s : State, s.state = .executing → PcRoom 1 s → 0 ≤ (s.mem.read s.pc.toNat).toInt →
    ((s.mem.read s.pc.toNat).toInt % 100 = 0 ∨
      10 ≤ (s.mem.read s.pc.toNat).toInt % 100 ∧ (s.mem.read s.pc.toNat).toInt % 100 ≤ 98) →
    Sys2Proof.Machine.step s = .next ((afterCell s).raise .unrecognizedOpcode)

/-- R52, R172: a negative instruction word raises `NegativeInstructionWord`, the word having been consumed; zero passes
this check and fails as opcode 0. What a raise leaves is decision D6 (log entry 4). -/
def Obligations.NegativeWordFaults : Prop :=
  ∀ s : State, s.state = .executing → PcRoom 1 s →
    ((s.mem.read s.pc.toNat).toInt < 0 →
      Sys2Proof.Machine.step s = .next ((afterCell s).raise .negativeInstructionWord)) ∧
    (s.mem.read s.pc.toNat = 0 → Sys2Proof.Machine.step s = .next ((afterCell s).raise .unrecognizedOpcode))

/-- R179 and R13, the spec's decision D2 (log entry 1): consuming a cell at `pc = U64_MAX`, be it the instruction word or
the raw word of an operand of any kind, raises `PcOverflow` with `pc` kept and the cell read; in `wrap` mode `pc` becomes
0 and the cell is consumed. The state at the raise is decisions D6 and D7 (log entry 4). -/
def Obligations.PcOverflowAtTheTop : Prop :=
  ∀ (p : Params) (s : State), p.memCapacity = none → s.pc.toNat = u64Max →
    (p.overflow = .fault →
      fetchWord p s = .raised .pcOverflow (stuckAtTop s) ∧
      (∀ (o : Operand) (m : Mode), o.mode = .known m →
        signedOperand p o s = .raised .pcOverflow (stuckAtTop s) ∧
        unsignedOperand p o s = .raised .pcOverflow (stuckAtTop s) ∧
        writeOperand p o s = .raised .pcOverflow (stuckAtTop s)) ∧
      (s.state = .executing → stepUnder p s = .next ((stuckAtTop s).raise .pcOverflow))) ∧
    (p.overflow = .wrap →
      fetchWord p s = .ok (s.mem.read u64Max) { s with pc := 0, mem := s.mem.touch u64Max })

/-- The step is the spec's own pseudocode, under every choice of the OPEN parameters: reading the four cells at `pc`,
making an instruction of them and running it comes to the same as the sequential `FetchDecode` of R71, which looks at
each mode digit and each raw word only when it is reached, followed by the `Execute` of R82, inside the `MicroStep` of
R84. `exec` and `step` are the machine under the default parameters of R4. The sequential order of R71 is the spec's
decision D5 (log entries 7 and 13). -/
def Obligations.StepIsTheSpecsPseudocode : Prop :=
  (∀ (p : Params) (s : State), stepUnder p s = (microStepOf p s).outcome) ∧
  (∀ (i : Instr) (s : State), Sys2Proof.Machine.exec i s = execUnder Params.defaults i s) ∧
  ∀ s : State, Sys2Proof.Machine.step s = (microStepOf Params.defaults s).outcome

/-- R84: with the default parameters the micro-step is total: no state is stuck and none is refused. -/
def Obligations.EveryStateHasAStep : Prop :=
  ∀ s : State, ∃ t, Sys2Proof.Machine.step s = .next t

/-- The table of R83, with the `Faulted` rows of decision D6 (log entry 4): where each execution state can go. From
`Executing` the instruction at `pc` decides: ADD, MUL, LT, EQ, ARB, JT and JF stay, IN waits, OUT yields, HLT ends, and
any of them but HLT may fault. -/
def Obligations.TransitionsOfTheTable : Prop :=
  ∀ s t : State, Sys2Proof.Machine.step s = .next t →
    (s.state = .done → t = s) ∧
    (∀ c, s.state = .faulted c → t = s) ∧
    (s.state = .hasOutput → t.state = .executing) ∧
    (∀ d, s.state = .needsInput d → (s.iq = [] ∧ t = s) ∨ (s.iq ≠ [] ∧ t.state = .executing)) ∧
    (s.state = .executing →
      (∃ c, t.state = .faulted c) ∨
      ∃ i, decodeWords (s.mem.read s.pc.toNat) (s.mem.read (s.pc + 1).toNat) (s.mem.read (s.pc + 2).toNat)
          (s.mem.read (s.pc + 3).toNat) = .ok i ∧
        match i with
        | .inp w => ∃ d, t.state = .needsInput d ∧ d.toNat = writeAddress w s
        | .out _ => t.state = .hasOutput
        | .hlt => t.state = .done
        | _ => t.state = .executing)

/-- R86, law P3: in `Done` a Step reports Done and changes no part of the state; and once a Step has reported Done, every
later Step does. -/
def Obligations.DoneStaysDone : Prop :=
  (∀ s : State, s.state = .done →
    Sys2Proof.Machine.step s = .next s ∧
    ∀ fuel, stepTransaction Sys2Proof.Machine.step (fuel + 1) s = .reported .done s) ∧
  ∀ (fuel more : Nat) (s t : State), stepTransaction Sys2Proof.Machine.step fuel s = .reported .done t →
    stepTransaction Sys2Proof.Machine.step (more + 1) t = .reported .done t

/-- R89, the spec's decision D6 (log entry 4): in `Faulted` a Step reports the same fault again and changes nothing. -/
def Obligations.FaultedStaysFaulted : Prop :=
  ∀ (s : State) (c : Cause), s.state = .faulted c →
    Sys2Proof.Machine.step s = .next s ∧
    ∀ fuel, stepTransaction Sys2Proof.Machine.step (fuel + 1) s = .reported (.fault c) s

/-- R87: the micro-step that enters `HasOutput` yields; the next one goes back to `Executing` at once, whatever `OQ` holds,
and the same Step call goes on. -/
def Obligations.HasOutputResumes : Prop :=
  (∀ s t : State, Sys2Proof.Machine.step s = .next t → t.state = .hasOutput →
    ∀ fuel, stepTransaction Sys2Proof.Machine.step (fuel + 1) s = .reported .hasOutput t) ∧
  ∀ s : State, s.state = .hasOutput →
    Sys2Proof.Machine.step s = .next { s with state := .executing } ∧
    ∀ fuel, stepTransaction Sys2Proof.Machine.step (fuel + 1) s =
      stepTransaction Sys2Proof.Machine.step fuel { s with state := .executing }

/-- R88, law P7: in `NeedsInput` the front value of `IQ` is taken, written to `DEST`, and the Step goes on without
yielding; with `IQ` empty nothing changes and the Step reports `NeedsInput`. The IN that enters `NeedsInput` writes no
memory and does not yield, so the first attempt is made in the same Step call. -/
def Obligations.NeedsInputDeliversOrReports : Prop :=
  (∀ (s : State) (d : Addr) (v : Cell) (rest : List Cell), s.state = .needsInput d → s.iq = v :: rest →
    Sys2Proof.Machine.step s =
      .next { s with iq := rest, mem := s.mem.write d.toNat v, state := .executing } ∧
    ∀ fuel, stepTransaction Sys2Proof.Machine.step (fuel + 1) s = stepTransaction Sys2Proof.Machine.step fuel
      { s with iq := rest, mem := s.mem.write d.toNat v, state := .executing }) ∧
  (∀ (s : State) (d : Addr), s.state = .needsInput d → s.iq = [] →
    Sys2Proof.Machine.step s = .next s ∧
    ∀ fuel, stepTransaction Sys2Proof.Machine.step (fuel + 1) s = .reported .needsInput s) ∧
  ∀ (s t : State) (d : Addr), s.state = .executing → Sys2Proof.Machine.step s = .next t → t.state = .needsInput d →
    (∀ a, t.mem.read a = s.mem.read a) ∧
    ∀ fuel, stepTransaction Sys2Proof.Machine.step (fuel + 1) s = stepTransaction Sys2Proof.Machine.step fuel t

/-- R85, R90: the report of a Step is determined by the state it leaves, which is never `Executing`; with `NeedsInput` the
input queue is empty; and a Step appends one value to `OQ` if it reports `HasOutput`, and none otherwise. -/
def Obligations.ReportSaysTheState : Prop :=
  ∀ (fuel : Nat) (s t : State) (r : Report), stepTransaction Sys2Proof.Machine.step fuel s = .reported r t →
    match r with
    | .done => t.state = .done ∧ t.oq = s.oq
    | .fault c => t.state = .faulted c ∧ t.oq = s.oq
    | .needsInput => (∃ d, t.state = .needsInput d) ∧ t.iq = [] ∧ t.oq = s.oq
    | .hasOutput => t.state = .hasOutput ∧ ∃ v, t.oq = s.oq ++ [v]

/-- R91: fuel is no part of the machine: an answer found with some fuel is the answer with any more. -/
def Obligations.MoreFuelSameAnswer : Prop :=
  ∀ (n m : Nat) (s : State), n ≤ m → stepTransaction Sys2Proof.Machine.step n s ≠ .noAnswer →
    stepTransaction Sys2Proof.Machine.step m s = stepTransaction Sys2Proof.Machine.step n s

/-- R155, with decision D18 (log entry 23): where a Step reports Done, NeedsInput or a fault, Run answers `Ok`,
`RunNeedsInput` or that fault with the state the Step left, and where it reports HasOutput, Run goes on from there. And
Run ends with `Ok` only in `Done`; a Run that wants more input fails with the core intact in `NeedsInput`, its queue
empty; a Run that fails with a fault leaves the core in `Faulted` with it. -/
def Obligations.RunEndsAsTheCoreDoes : Prop :=
  (∀ (fuel steps : Nat) (s t : State) (r : Report), stepTransaction Sys2Proof.Machine.step fuel s = .reported r t →
    runTransaction Sys2Proof.Machine.step fuel (steps + 1) s =
      match r with
      | .done => .ok t
      | .needsInput => .error .runNeedsInput t
      | .fault c => .error (.fault c) t
      | .hasOutput => runTransaction Sys2Proof.Machine.step fuel steps t) ∧
  ∀ (fuel steps : Nat) (s t : State),
    (runTransaction Sys2Proof.Machine.step fuel steps s = .ok t → t.state = .done) ∧
    (runTransaction Sys2Proof.Machine.step fuel steps s = .error .runNeedsInput t →
      (∃ d, t.state = .needsInput d) ∧ t.iq = []) ∧
    ∀ c, runTransaction Sys2Proof.Machine.step fuel steps s = .error (.fault c) t → t.state = .faulted c

/-! ## What each instruction does -/

/-- R101 where the exact sum fits a cell: ADD completes, `pc` past its three operands, and `M(w)` is the sum of the values
of `a` and `b`. -/
def Obligations.AddStoresSum : Prop :=
  ∀ (a b w : Operand) (s : State), ReadyF3 a b w s → InI64 ((readValue a s).toInt + (readValue b s).toInt) →
    ∃ v : Cell, v.toInt = (readValue a s).toInt + (readValue b s).toInt ∧
      Sys2Proof.Machine.exec (.add a b w) s =
        .next { afterF3 a b s with mem := (afterF3 a b s).mem.write (writeAddress w s) v }

/-- R102 where the exact product fits a cell: MUL completes and `M(w)` is the product. -/
def Obligations.MulStoresProduct : Prop :=
  ∀ (a b w : Operand) (s : State), ReadyF3 a b w s → InI64 ((readValue a s).toInt * (readValue b s).toInt) →
    ∃ v : Cell, v.toInt = (readValue a s).toInt * (readValue b s).toInt ∧
      Sys2Proof.Machine.exec (.mul a b w) s =
        .next { afterF3 a b s with mem := (afterF3 a b s).mem.write (writeAddress w s) v }

/-- `44_comparisons.md` section 2: LT completes and `M(w)` is 1 if `a < b` as signed values, else 0. The values 1 and 0 are
the spec's decision D9, from general knowledge (log entry 6). -/
def Obligations.LtStoresRelation : Prop :=
  ∀ (a b w : Operand) (s : State), ReadyF3 a b w s →
    Sys2Proof.Machine.exec (.lt a b w) s =
      .next { afterF3 a b s with
        mem := (afterF3 a b s).mem.write (writeAddress w s)
          (if (readValue a s).toInt < (readValue b s).toInt then 1 else 0) }

/-- `44_comparisons.md` section 3: EQ completes and `M(w)` is 1 if `a = b`, else 0. The values 1 and 0 are the spec's
decision D9, from general knowledge (log entry 6). -/
def Obligations.EqStoresRelation : Prop :=
  ∀ (a b w : Operand) (s : State), ReadyF3 a b w s →
    Sys2Proof.Machine.exec (.eq a b w) s =
      .next { afterF3 a b s with
        mem := (afterF3 a b s).mem.write (writeAddress w s)
          (if (readValue a s).toInt = (readValue b s).toInt then 1 else 0) }

/-- R140 where the exact sum fits: ARB completes, and `rb` is the old `rb` plus the value of `a`, which a Relative operand
reads with the old `rb`. -/
def Obligations.ArbAddsToBase : Prop :=
  ∀ (a : Operand) (s : State), ReadyF1R a s → InI64 (s.rb.toInt + (readValue a s).toInt) →
    ∃ r : Cell, r.toInt = s.rb.toInt + (readValue a s).toInt ∧
      Sys2Proof.Machine.exec (.arb a) s = .next { afterRead a s with rb := r }

/-- R110, first half: IN completes by waiting, with the write address in `DEST` and `pc` past its operand. -/
def Obligations.InWaitsAtItsAddress : Prop :=
  ∀ (w : Operand) (s : State), ReadyF1W w s →
    ∃ d : Addr, d.toNat = writeAddress w s ∧
      Sys2Proof.Machine.exec (.inp w) s = .next { afterCell s with state := .needsInput d }

/-- R111: OUT completes: the value of `a` goes to the back of `OQ` and the core is in `HasOutput`. -/
def Obligations.OutAppendsValue : Prop :=
  ∀ (a : Operand) (s : State), ReadyF1R a s →
    Sys2Proof.Machine.exec (.out a) s =
      .next { afterRead a s with oq := s.oq ++ [readValue a s], state := .hasOutput }

/-- `43_jumps.md` sections 2 and 3: JT and JF complete. JT overwrites `pc` with the target if `a` is not zero, JF if it is
zero; otherwise `pc` is the address after the jump. The conditions are the spec's decision D9, from general knowledge
(log entry 6). -/
def Obligations.JumpsOverwritePc : Prop :=
  ∀ (a t : Operand) (s : State), ReadyF2J a t s →
    Sys2Proof.Machine.exec (.jt a t) s =
      .next (if (readValue a s).toInt ≠ 0 then { afterF2J a t s with pc := readValue t s } else afterF2J a t s) ∧
    Sys2Proof.Machine.exec (.jf a t) s =
      .next (if (readValue a s).toInt = 0 then { afterF2J a t s with pc := readValue t s } else afterF2J a t s)

/-- R145: HLT completes: `STATE` is `Done`, `pc` is one past the word, nothing else changes, and the Step reports Done.
Every non-negative word ending in the digits 99 is HLT; that its higher digits do not matter is R56, the spec's decision D4
(log entry 3). -/
def Obligations.HltEndsTheRun : Prop :=
  (∀ s : State, Sys2Proof.Machine.exec .hlt s = .next { s with state := .done }) ∧
  ∀ s : State, s.state = .executing → PcRoom 1 s → 0 ≤ (s.mem.read s.pc.toNat).toInt →
    (s.mem.read s.pc.toNat).toInt % 100 = 99 →
    Sys2Proof.Machine.step s = .next { afterCell s with state := .done } ∧
    ∀ fuel, stepTransaction Sys2Proof.Machine.step (fuel + 1) s =
      .reported .done { afterCell s with state := .done }

/-! ## Overflow, faults and their order -/

/-- `41_arithmetic.md` section 1 with `OVERFLOW_MODE = fault`, the spec's decision D2 (log entry 1): an exact result outside
`I64` raises `ArithmeticOverflow` after the whole instruction has been consumed, with no write and `rb` unchanged. What
a raise leaves is decisions D6 and D7 (log entry 4). -/
def Obligations.OverflowRaises : Prop :=
  (∀ (a b w : Operand) (s : State), ReadyF3 a b w s →
    (¬ InI64 ((readValue a s).toInt + (readValue b s).toInt) →
      Sys2Proof.Machine.exec (.add a b w) s = .next ((afterF3 a b s).raise .arithmeticOverflow)) ∧
    (¬ InI64 ((readValue a s).toInt * (readValue b s).toInt) →
      Sys2Proof.Machine.exec (.mul a b w) s = .next ((afterF3 a b s).raise .arithmeticOverflow))) ∧
  ∀ (a : Operand) (s : State), ReadyF1R a s → ¬ InI64 (s.rb.toInt + (readValue a s).toInt) →
    Sys2Proof.Machine.exec (.arb a) s = .next ((afterRead a s).raise .arithmeticOverflow)

/-- The same with `OVERFLOW_MODE = wrap` (decision D2, log entry 1): ADD, MUL and ARB complete with the one value of `I64`
that is congruent to the exact result modulo 2^64. -/
def Obligations.OverflowWraps : Prop :=
  ∀ p : Params, p.Unbounded → p.overflow = .wrap →
    (∀ (a b w : Operand) (s : State), ReadyF3 a b w s →
      (∃ v : Cell, (2 : Int) ^ 64 ∣ v.toInt - ((readValue a s).toInt + (readValue b s).toInt) ∧
        execUnder p (.add a b w) s =
          .next { afterF3 a b s with mem := (afterF3 a b s).mem.write (writeAddress w s) v }) ∧
      (∃ v : Cell, (2 : Int) ^ 64 ∣ v.toInt - (readValue a s).toInt * (readValue b s).toInt ∧
        execUnder p (.mul a b w) s =
          .next { afterF3 a b s with mem := (afterF3 a b s).mem.write (writeAddress w s) v })) ∧
    ∀ (a : Operand) (s : State), ReadyF1R a s →
      ∃ r : Cell, (2 : Int) ^ 64 ∣ r.toInt - (s.rb.toInt + (readValue a s).toInt) ∧
        execUnder p (.arb a) s = .next { afterRead a s with rb := r }

/-- `30_encoding.md` section 3 with `OVERFLOW_MODE = wrap` (decisions D2 and C10, log entries 1 and 7): the sum of a Relative
operand is first wrapped; the wrapped sum is the address, and if it is negative the operand raises `NegativePointer`. -/
def Obligations.RelativeSumWraps : Prop :=
  ∀ (p : Params) (o : Operand) (s : State), p.memCapacity = none → p.overflow = .wrap → o.mode = .known .relative →
    PcRoom 1 s →
    ∃ a : Cell, (2 : Int) ^ 64 ∣ a.toInt - (o.raw.toInt + s.rb.toInt) ∧
      (a.toInt < 0 →
        signedOperand p o s = .raised .negativePointer (afterCell s) ∧
        writeOperand p o s = .raised .negativePointer (afterCell s)) ∧
      (0 ≤ a.toInt →
        signedOperand p o s =
          .ok (s.mem.read a.toInt.toNat) { afterCell s with mem := (afterCell s).mem.touch a.toInt.toNat } ∧
        writeOperand p o s = .ok a (afterCell s))

/-- `60_exceptions.md` section 3, the spec's decision D5 (log entry 7): of every instruction, wherever it stands, the first
fault in reading order is taken, each operand completely before the next, with `pc` and `MEMLEN` as the cells consumed
and the reads made before the raise left them. What a raise leaves is decisions D6 and D7 (log entry 4). That a sum
`raw + rb` outside `I64` and a cell at `pc = U64_MAX` are faults is decision D2, with `OVERFLOW_MODE = fault` (log entry
1). -/
def Obligations.FirstFaultIsTaken : Prop :=
  ∀ (i : Instr) (s t : State) (c : Cause), firstFault (operandsByKind i) s = some (c, t) →
    Sys2Proof.Machine.exec i s = .next (t.raise c)

/-- R35: an address below 0 never reaches memory: a Position raw word below zero, a Relative sum below zero and a write
address below zero raise `NegativePointer`; a negative instruction word raises `NegativeInstructionWord`; and `pc` is
no negative number. What a raise leaves is decision D6 (log entry 4). -/
def Obligations.NegativeAddressesAreCaught : Prop :=
  (∀ (o : Operand) (m : Mode) (s : State), o.mode = .known m → PcRoom 1 s → i64Min ≤ exactAddress m o.raw s.rb →
    exactAddress m o.raw s.rb < 0 →
    (m ≠ .immediate → signedOperand params o s = .raised .negativePointer (afterCell s)) ∧
    writeOperand params o s = .raised .negativePointer (afterCell s)) ∧
  (∀ s : State, s.state = .executing → PcRoom 1 s → (s.mem.read s.pc.toNat).toInt < 0 →
    Sys2Proof.Machine.step s = .next ((afterCell s).raise .negativeInstructionWord)) ∧
  ∀ s : State, 0 ≤ (s.pc.toNat : Int)

/-- R61: an unsigned operand is a signed-value operand that raises `NegativeJumpTarget` if the resolved value is
negative. -/
def Obligations.UnsignedOperandChecksValue : Prop :=
  ∀ (p : Params) (o : Operand) (s : State),
    (∀ (v : Cell) (t : State), signedOperand p o s = .ok v t → v.toInt < 0 →
      unsignedOperand p o s = .raised .negativeJumpTarget t) ∧
    (∀ (v : Cell) (t : State), signedOperand p o s = .ok v t → 0 ≤ v.toInt →
      unsignedOperand p o s = .ok v t ∧ v.toNat ≤ i64Max.toNat) ∧
    (∀ (c : Cause) (t : State), signedOperand p o s = .raised c t → unsignedOperand p o s = .raised c t)

/-- `43_jumps.md` section 1, an inference the spec marks as derived: the target of a jump is resolved and its sign checked
even when the jump is not taken. What a raise leaves is decisions D6 and D7 (log entry 4). -/
def Obligations.UntakenJumpChecksTarget : Prop :=
  ∀ (a t : Operand) (s : State), Readable a s → Readable t s → PcRoom 2 s → (readValue t s).toInt < 0 →
    Sys2Proof.Machine.exec (.jt a t) s = .next ((afterF2J a t s).raise .negativeJumpTarget) ∧
    Sys2Proof.Machine.exec (.jf a t) s = .next ((afterF2J a t s).raise .negativeJumpTarget)

/-- `60_exceptions.md` section 3 (decision D7, log entry 4): a step that faults changes no cell's value, not `rb` and neither
queue, and `MEMLEN` does not fall. Nothing is said of `pc` or of how far `MEMLEN` rose, as the spec asks. -/
def Obligations.FaultsArePrecise : Prop :=
  ∀ (s t : State) (c : Cause), Sys2Proof.Machine.step s = .next t → t.state = .faulted c →
    (∀ a, t.mem.read a = s.mem.read a) ∧ t.rb = s.rb ∧ t.iq = s.iq ∧ t.oq = s.oq ∧ s.mem.len ≤ t.mem.len

/-! ## Frames -/

/-- The frame of the storing instructions, ADD, MUL, LT and EQ: `rb` and both queues are unchanged; `STATE` is unchanged
unless the instruction faulted, and then no byte of memory changed; and every cell but the one at the write operand's
address reads as before. There is no flag (`10_state.md` R16) and no other register. -/
def Obligations.StoringInstrsFrame : Prop :=
  ∀ (a b w : Operand) (i : Instr) (s t : State),
    i = .add a b w ∨ i = .mul a b w ∨ i = .lt a b w ∨ i = .eq a b w →
    Sys2Proof.Machine.exec i s = .next t →
    t.rb = s.rb ∧ t.iq = s.iq ∧ t.oq = s.oq ∧
    (∀ x, x ≠ writeAddress w s → t.mem.read x = s.mem.read x) ∧
    (t.state = s.state ∨ ∃ c, t.state = .faulted c ∧ ∀ x, t.mem.read x = s.mem.read x)

/-- The frame of the instructions that store nothing, IN (first half), OUT, JT, JF, ARB and HLT: every cell reads as before
and `IQ` is unchanged; `rb` is unchanged but for ARB, `OQ` but for OUT; and `STATE` is unchanged but for IN, OUT, HLT
and a fault. -/
def Obligations.OtherInstrsFrame : Prop :=
  ∀ (a q : Operand) (i : Instr) (s t : State),
    i = .inp a ∨ i = .out a ∨ i = .jt a q ∨ i = .jf a q ∨ i = .arb a ∨ i = .hlt →
    Sys2Proof.Machine.exec i s = .next t →
    (∀ x, t.mem.read x = s.mem.read x) ∧ t.iq = s.iq ∧
    (i ≠ .arb a → t.rb = s.rb) ∧ (i ≠ .out a → t.oq = s.oq) ∧
    (i ≠ .inp a → i ≠ .out a → i ≠ .hlt → t.state = s.state ∨ ∃ c, t.state = .faulted c)

/-- R15: only ARB changes `rb`. A step after which `rb` differs ran an ARB that stood at `pc`. -/
def Obligations.OnlyArbChangesBase : Prop :=
  ∀ s t : State, Sys2Proof.Machine.step s = .next t → t.rb ≠ s.rb →
    s.state = .executing ∧ ∃ a,
      decodeWords (s.mem.read s.pc.toNat) (s.mem.read (s.pc + 1).toNat) (s.mem.read (s.pc + 2).toNat)
        (s.mem.read (s.pc + 3).toNat) = .ok (.arb a)

/-- R93, R114: a step takes at most the front value of `IQ`, and only while the core waits for one; it appends at most one
value to `OQ`, and only in an OUT. -/
def Obligations.QueuesMoveByOneValue : Prop :=
  ∀ s t : State, Sys2Proof.Machine.step s = .next t →
    (t.iq = s.iq ∨ ∃ v d, s.iq = v :: t.iq ∧ s.state = .needsInput d ∧ t.mem.read d.toNat = v) ∧
    (t.oq = s.oq ∨ ∃ v, t.oq = s.oq ++ [v] ∧ s.state = .executing ∧ t.state = .hasOutput)

/-- R93, `20_memory.md` section 1: the only cell a step can change is `DEST`, where the core was waiting for input, or the
cell at the write operand of an ADD, MUL, LT or EQ that stood at `pc`. -/
def Obligations.OnlyStoresChangeCells : Prop :=
  ∀ (s t : State) (x : Nat), Sys2Proof.Machine.step s = .next t → t.mem.read x ≠ s.mem.read x →
    (∃ d, s.state = .needsInput d ∧ x = d.toNat) ∨
    (s.state = .executing ∧ ∃ (i : Instr) (a b w : Operand),
      decodeWords (s.mem.read s.pc.toNat) (s.mem.read (s.pc + 1).toNat) (s.mem.read (s.pc + 2).toNat)
        (s.mem.read (s.pc + 3).toNat) = .ok i ∧
      (i = .add a b w ∨ i = .mul a b w ∨ i = .lt a b w ∨ i = .eq a b w) ∧ x = writeAddress w s)

/-- `10_state.md` R20: `MEMLEN` never decreases. -/
def Obligations.MemlenNeverDecreases : Prop :=
  ∀ s t : State, Sys2Proof.Machine.step s = .next t → s.mem.len ≤ t.mem.len

/-! ## Finite parameters -/

/-- `20_memory.md` R46 and `42_input_output.md` section 1 (decisions D14 and D12, log entries 8 and 9): with a finite
`MEM_CAPACITY` every read and write at or above it has no step, and every one below it is made: the fetch of a word, the
read of an operand, the store of an ADD, MUL, LT or EQ, and the delivery of an input. With `OQ` at a finite `OQ_DEPTH` an
OUT has no step, and it has one again after the host removed a value. -/
def Obligations.FiniteLimitsHold : Prop :=
  (∀ (p : Params) (c : Nat), p.memCapacity = some c →
    (∀ (a : Nat) (v : Cell) (s : State),
      (c ≤ a → memRead p a s = .stuck (.memoryExhausted a) ∧ memWrite p a v s = .stuck (.memoryExhausted a)) ∧
      (a < c → memRead p a s = .ok (s.mem.read a) { s with mem := s.mem.touch a } ∧
        memWrite p a v s = .ok () { s with mem := s.mem.write a v })) ∧
    (∀ s : State, s.state = .executing → c ≤ s.pc.toNat → stepUnder p s = .fault (.memoryExhausted s.pc.toNat)) ∧
    (∀ (o : Operand) (s : State) (a : Nat), Readable o s → PcRoom 1 s → s.pc.toNat < c → readAddress o s = some a →
      c ≤ a →
      signedOperand p o s = .stuck (.memoryExhausted a) ∧ unsignedOperand p o s = .stuck (.memoryExhausted a)) ∧
    (∀ (a b w : Operand) (s : State), ReadyF3 a b w s → s.pc.toNat + 3 ≤ c → ReadsBelow c a s → ReadsBelow c b s →
      c ≤ writeAddress w s →
      (InI64 ((readValue a s).toInt + (readValue b s).toInt) →
        execUnder p (.add a b w) s = .fault (.memoryExhausted (writeAddress w s))) ∧
      (InI64 ((readValue a s).toInt * (readValue b s).toInt) →
        execUnder p (.mul a b w) s = .fault (.memoryExhausted (writeAddress w s))) ∧
      execUnder p (.lt a b w) s = .fault (.memoryExhausted (writeAddress w s)) ∧
      execUnder p (.eq a b w) s = .fault (.memoryExhausted (writeAddress w s))) ∧
    ∀ (s : State) (d : Addr), s.state = .needsInput d → s.iq ≠ [] → c ≤ d.toNat →
      stepUnder p s = .fault (.memoryExhausted d.toNat)) ∧
  ∀ (p : Params) (a : Operand) (s : State) (d : Nat), p.memCapacity = none → p.oqDepth = some d → ReadyF1R a s →
    s.oq.length = d → 0 < d →
    execUnder p (.out a) s = .fault .outputHeld ∧
    ∃ t, execUnder p (.out a) (outputDequeue s).2 = .next t ∧ t.state = .hasOutput

/-! ## The host's transactions -/

/-- R154: `OutputDequeue` takes the front of `OQ`; on an empty `OQ` it answers `Empty` and nothing changes; in every
execution state. -/
def Obligations.OutputDequeueTakesFront : Prop :=
  ∀ s : State,
    (∀ (v : Cell) (rest : List Cell), s.oq = v :: rest → outputDequeue s = (some v, { s with oq := rest })) ∧
    (s.oq = [] → outputDequeue s = (none, s))

/-- `48_host_interface.md` section 1: `InputEnqueue` appends to `IQ` and changes nothing else; by itself it resumes no core
that waits, and the next step of a core that waited on an empty queue takes the value. With a finite depth (decision
D12, log entry 9) a full queue holds the host. -/
def Obligations.InputEnqueueAppends : Prop :=
  (∀ (v : Cell) (s : State), inputEnqueue v s = some { s with iq := s.iq ++ [v] }) ∧
  (∀ (v : Cell) (s t u : State) (d : Addr), s.state = .needsInput d → s.iq = [] → inputEnqueue v s = some t →
    Sys2Proof.Machine.step t = .next u → u.mem.read d.toNat = v ∧ u.state = .executing ∧ u.iq = []) ∧
  ∀ (p : Params) (v : Cell) (s : State) (d : Nat), p.iqDepth = some d →
    (inputEnqueueUnder p v s = none ↔ d ≤ s.iq.length)

/-- `48_host_interface.md` section 1: `Peek` shows `MEMLEN`, the cells below it in order, `pc` and `rb`. Peek is the spec's
decision D17 (log entry 21). -/
def Obligations.PeekShowsTheMachine : Prop :=
  ∀ s : State, (peek s).1 = s.mem.len ∧ (peek s).2.1.length = s.mem.len ∧
    (∀ a, a < s.mem.len → (peek s).2.1[a]? = some (s.mem.read a)) ∧ (peek s).2.2 = (s.pc, s.rb)

/-! ## Several cores -/

/-- R163: under any parameters, a micro-step of one core leaves every other core's `pc`, `rb`, memory and execution state
alone, and every queue the core is not attached to. -/
def Obligations.CoresOwnTheirMemory : Prop :=
  ∀ (p : Params) (sys sys' : System) (k : Nat) (n : Node), sys.nodes[k]? = some n → sys.tick p k = .next sys' →
    (∀ j, j ≠ k → sys'.nodes[j]? = sys.nodes[j]?) ∧
    (∀ q, q ≠ n.inQ → q ≠ n.outQ → sys'.queue q = sys.queue q) ∧
    sys'.nodes.length = sys.nodes.length ∧ sys'.queues.length = sys.queues.length

/-- `48_host_interface.md` section 1, `Snapshot` (decision D16, log entry 10): between two Steps of a core the host may clone
it; the clone is one more core with the same `pc`, `rb`, memory and execution state, attached to the same two queues; the
queues themselves are not copied; and a micro-step of either leaves the other's own state alone. -/
def Obligations.SnapshotSharesOnlyQueues : Prop :=
  ∀ (p : Params) (sys : System) (k : Nat) (n : Node), sys.nodes[k]? = some n → n.inStep = false →
    ∃ sys', sys.snapshot k = .next sys' ∧
      sys'.nodes[sys.nodes.length]? = some n ∧ (∀ j, j < sys.nodes.length → sys'.nodes[j]? = sys.nodes[j]?) ∧
      sys'.queues = sys.queues ∧ sys'.view n = sys.view n ∧
      (∀ sys'', sys'.tick p k = .next sys'' → sys''.nodes[sys.nodes.length]? = some n) ∧
      ∀ sys'', sys'.tick p sys.nodes.length = .next sys'' → sys''.nodes[k]? = some n

/-- `70_reset_and_hazards.md` section 2 (log entry 11): while a core is inside a Step, every other core that shares a queue
end with it is given no step, whichever of the two is the clone, and a schedule passes it over; a core that no such core
blocks is not refused so; and where no two cores that share a queue end are both inside a Step, no schedule brings two
there. And by `00_scope.md` section 5 (decision D1) the host takes no transaction on a core that is inside a Step, but the
dequeue that lifts the hold of a full queue (decision D12, log entries 9 and 11). -/
def Obligations.SecondSharerIsRefused : Prop :=
  ∀ (p : Params) (sys : System),
    (∀ (j k : Nat) (n m : Node), j ≠ k → sys.nodes[j]? = some n → sys.nodes[k]? = some m → n.inStep = true →
      sharesEnd n m = true → sys.tick p k = .refused .sharedQueueBusy ∧ sys.runSchedule p [k] = sys) ∧
    (∀ (k : Nat) (m : Node), sys.nodes[k]? = some m →
      (∀ (j : Nat) (n : Node), j ≠ k → sys.nodes[j]? = some n → n.inStep = true → sharesEnd n m = false) →
      sys.tick p k ≠ .refused .sharedQueueBusy) ∧
    (sys.Exclusive → ∀ schedule, (sys.runSchedule p schedule).Exclusive) ∧
    ∀ (k : Nat) (n : Node), sys.nodes[k]? = some n → n.inStep = true →
      (∀ rom, sys.load rom k = .refused .coreInsideStep) ∧ sys.snapshot k = .refused .coreInsideStep ∧
      (∀ v, sys.inputEnqueue p k v = .refused .coreInsideStep) ∧ sys.peek k = .refused .coreInsideStep ∧
      (stepUnder (sys.paramsOf p n) (sys.view n) ≠ .fault .outputHeld →
        sys.outputDequeue p k = .refused .coreInsideStep) ∧
      (stepUnder (sys.paramsOf p n) (sys.view n) = .fault .outputHeld → ∀ v rest, sys.queue n.outQ = v :: rest →
        sys.outputDequeue p k = .next (some v, { sys with queues := sys.queues.set n.outQ rest }))

/-- R164, R114: along every schedule, the values taken from a queue followed by those still in it are the values that were
in it followed by those emitted to it, in emission order: none is lost, duplicated or reordered. -/
def Obligations.QueuesAreFifo : Prop :=
  ∀ (p : Params) (sys : System) (schedule : List Nat) (q : Nat), q < sys.queues.length →
    sys.queue q ++ System.emitted p q sys schedule =
      System.taken p q sys schedule ++ (sys.runSchedule p schedule).queue q

/-- `48_host_interface.md` section 3: where every queue has one producer and one consumer, the micro-steps of two different
cores that can both move may be taken in either order, under any parameters. -/
def Obligations.DistinctCoresCommute : Prop :=
  ∀ (p : Params) (sys : System) (j k : Nat), sys.WellWired → j ≠ k → sys.enabled p j = true → sys.enabled p k = true →
    sys.runSchedule p [j, k] = sys.runSchedule p [k, j]

/-- `48_host_interface.md` section 3, law P8 as the spec derives it: wired cores are deterministic, under any parameters.
Any two interleavings that run a well-wired system until no core can move end in the same machines: the same memories,
registers and execution states, and the same values left in every queue. -/
def Obligations.InterleavingDoesNotMatter : Prop :=
  ∀ (p : Params) (sys : System) (first second : List Nat), sys.WellWired → (sys.runSchedule p first).Quiescent p →
    (sys.runSchedule p second).Quiescent p →
    (sys.runSchedule p first).machines = (sys.runSchedule p second).machines

/-- `48_host_interface.md` section 3: the ring of the spec is well wired, and no core of it is inside a Step. -/
def Obligations.RingIsWellWired : Prop :=
  ∀ rom phases : List Cell, (System.ring rom phases).WellWired ∧
    ∀ n ∈ (System.ring rom phases).nodes, n.inStep = false
end

