-- ==== Sys2Proof/Laws/State.lean ====
section
/-!
SUPPORT. One lemma per field per named update of the state, each true by unfolding.
-/

namespace Sys2Proof.Machine

open Sys2Proof

variable (s : State) (c : Cause) (d : Addr) (o : Operand)

@[simp] theorem raise_pc : (s.raise c).pc = s.pc := rfl
@[simp] theorem raise_rb : (s.raise c).rb = s.rb := rfl
@[simp] theorem raise_mem : (s.raise c).mem = s.mem := rfl
@[simp] theorem raise_state : (s.raise c).state = .faulted c := rfl
@[simp] theorem raise_iq : (s.raise c).iq = s.iq := rfl
@[simp] theorem raise_oq : (s.raise c).oq = s.oq := rfl

@[simp] theorem awaitInput_pc : (awaitInput d s).pc = s.pc := rfl
@[simp] theorem awaitInput_rb : (awaitInput d s).rb = s.rb := rfl
@[simp] theorem awaitInput_mem : (awaitInput d s).mem = s.mem := rfl
@[simp] theorem awaitInput_state : (awaitInput d s).state = .needsInput d := rfl
@[simp] theorem awaitInput_iq : (awaitInput d s).iq = s.iq := rfl
@[simp] theorem awaitInput_oq : (awaitInput d s).oq = s.oq := rfl

@[simp] theorem jumpIf_pc (b : Bool) : (jumpIf b d s).pc = if b then d else s.pc := by cases b <;> rfl
@[simp] theorem jumpIf_rb (b : Bool) : (jumpIf b d s).rb = s.rb := by cases b <;> rfl
@[simp] theorem jumpIf_mem (b : Bool) : (jumpIf b d s).mem = s.mem := by cases b <;> rfl
@[simp] theorem jumpIf_state (b : Bool) : (jumpIf b d s).state = s.state := by cases b <;> rfl
@[simp] theorem jumpIf_iq (b : Bool) : (jumpIf b d s).iq = s.iq := by cases b <;> rfl
@[simp] theorem jumpIf_oq (b : Bool) : (jumpIf b d s).oq = s.oq := by cases b <;> rfl

@[simp] theorem afterCell_pc : (afterCell s).pc = s.pc + 1 := rfl
@[simp] theorem afterCell_rb : (afterCell s).rb = s.rb := rfl
@[simp] theorem afterCell_mem : (afterCell s).mem = s.mem.touch s.pc.toNat := rfl
@[simp] theorem afterCell_state : (afterCell s).state = s.state := rfl
@[simp] theorem afterCell_iq : (afterCell s).iq = s.iq := rfl
@[simp] theorem afterCell_oq : (afterCell s).oq = s.oq := rfl

@[simp] theorem stuckAtTop_pc : (stuckAtTop s).pc = s.pc := rfl
@[simp] theorem stuckAtTop_rb : (stuckAtTop s).rb = s.rb := rfl
@[simp] theorem stuckAtTop_mem : (stuckAtTop s).mem = s.mem.touch s.pc.toNat := rfl
@[simp] theorem stuckAtTop_state : (stuckAtTop s).state = s.state := rfl
@[simp] theorem stuckAtTop_iq : (stuckAtTop s).iq = s.iq := rfl
@[simp] theorem stuckAtTop_oq : (stuckAtTop s).oq = s.oq := rfl

@[simp] theorem afterRead_pc : (afterRead o s).pc = s.pc + 1 := by unfold afterRead; split <;> rfl
@[simp] theorem afterRead_rb : (afterRead o s).rb = s.rb := by unfold afterRead; split <;> rfl
@[simp] theorem afterRead_state : (afterRead o s).state = s.state := by unfold afterRead; split <;> rfl
@[simp] theorem afterRead_iq : (afterRead o s).iq = s.iq := by unfold afterRead; split <;> rfl
@[simp] theorem afterRead_oq : (afterRead o s).oq = s.oq := by unfold afterRead; split <;> rfl

end Sys2Proof.Machine
end

