-- ==== Sys2Proof/Laws/Memory.lean ====
section
/-!
SUPPORT. The laws of the memory primitives (`20_memory.md` R31 to R34), and that each of them keeps the canonical form.
-/

namespace Sys2Proof.Machine

open Sys2Proof

/-! ## Lists of cells -/

@[simp] theorem lookupCell_erase_same (l : List (Nat × Cell)) (a : Nat) : lookupCell (eraseCell l a) a = 0 := by
  induction l with
  | nil => rfl
  | cons c l ih =>
    simp only [eraseCell]
    split
    · exact ih
    · simp [lookupCell, *]

theorem lookupCell_erase_other (l : List (Nat × Cell)) {a x : Nat} (h : x ≠ a) :
    lookupCell (eraseCell l a) x = lookupCell l x := by
  induction l with
  | nil => rfl
  | cons c l ih =>
    simp only [eraseCell]
    split
    · next hc => simp [lookupCell, ih, ← hc, h]
    · simp [lookupCell, ih]

theorem lookupCell_insert_same (l : List (Nat × Cell)) (a : Nat) (v : Cell) (h : lookupCell l a = 0 → ∀ c ∈ l, c.1 ≠ a)
    (h0 : lookupCell l a = 0) : lookupCell (insertCell l a v) a = v := by
  induction l with
  | nil => simp [insertCell, lookupCell]
  | cons c l ih =>
    have hc : a ≠ c.1 := fun e => h h0 c (by simp) e.symm
    have h0' : lookupCell l a = 0 := by simpa [lookupCell, hc] using h0
    simp only [insertCell]
    split
    · simp [lookupCell]
    · simpa [lookupCell, hc] using ih (fun _ x hx => h h0 x (by simp [hx])) h0'

theorem lookupCell_insert_other (l : List (Nat × Cell)) {a x : Nat} (v : Cell) (h : x ≠ a) :
    lookupCell (insertCell l a v) x = lookupCell l x := by
  induction l with
  | nil => simp [insertCell, lookupCell, h]
  | cons c l ih =>
    simp only [insertCell]
    split
    · simp [lookupCell, h]
    · simp [lookupCell, ih]

theorem not_mem_eraseCell (l : List (Nat × Cell)) (a : Nat) : ∀ c ∈ eraseCell l a, c.1 ≠ a := by
  induction l with
  | nil => simp [eraseCell]
  | cons c l ih =>
    simp only [eraseCell]
    split
    · exact ih
    · next hc =>
      intro x hx
      rcases List.mem_cons.mp hx with rfl | hx
      · exact fun e => hc e.symm
      · exact ih x hx

theorem mem_of_mem_eraseCell (l : List (Nat × Cell)) (a : Nat) : ∀ c ∈ eraseCell l a, c ∈ l := by
  induction l with
  | nil => simp [eraseCell]
  | cons c l ih =>
    simp only [eraseCell]
    split
    · exact fun x hx => List.mem_cons_of_mem _ (ih x hx)
    · intro x hx
      rcases List.mem_cons.mp hx with rfl | hx
      · simp
      · exact List.mem_cons_of_mem _ (ih x hx)

theorem mem_insertCell (l : List (Nat × Cell)) (a : Nat) (v : Cell) :
    ∀ c ∈ insertCell l a v, c = (a, v) ∨ c ∈ l := by
  induction l with
  | nil => simp [insertCell]
  | cons c l ih =>
    simp only [insertCell]
    split
    · intro x hx
      rcases List.mem_cons.mp hx with rfl | hx
      · exact .inl rfl
      · exact .inr hx
    · intro x hx
      rcases List.mem_cons.mp hx with rfl | hx
      · exact .inr (by simp)
      · rcases ih x hx with rfl | hx
        · exact .inl rfl
        · exact .inr (List.mem_cons_of_mem _ hx)

/-! ## The primitives -/

@[simp] theorem read_touch (m : Memory) (a x : Nat) : (m.touch a).read x = m.read x := rfl
@[simp] theorem cells_touch (m : Memory) (a : Nat) : (m.touch a).cells = m.cells := rfl
@[simp] theorem len_touch (m : Memory) (a : Nat) : (m.touch a).len = max m.len (a + 1) := rfl
@[simp] theorem len_write (m : Memory) (a : Nat) (v : Cell) : (m.write a v).len = max m.len (a + 1) := rfl

/-- R33, R34: after a write, the address reads as the value written. -/
@[simp] theorem read_write_same (m : Memory) (a : Nat) (v : Cell) : (m.write a v).read a = v := by
  simp only [Memory.read, Memory.write]
  split
  · next h => simp [h]
  · exact lookupCell_insert_same _ _ _ (fun _ => not_mem_eraseCell _ _) (by simp)

/-- R33: a write leaves every other address alone. -/
theorem read_write_other (m : Memory) {a x : Nat} (v : Cell) (h : x ≠ a) : (m.write a v).read x = m.read x := by
  simp only [Memory.read, Memory.write]
  split
  · exact lookupCell_erase_other _ h
  · rw [lookupCell_insert_other _ _ h, lookupCell_erase_other _ h]

/-! ## The canonical form -/

/-- Raising the lower bound of a canonical list below its first entry is no loss. -/
theorem canonical_weaken {l : List (Nat × Cell)} {lo : Option Nat} (h : cellsCanonicalAbove lo l = true) :
    cellsCanonicalAbove none l = true := by
  cases l with
  | nil => rfl
  | cons c l => simp only [cellsCanonicalAbove, Bool.and_eq_true] at h ⊢; exact ⟨⟨trivial, h.1.2⟩, h.2⟩

theorem canonical_lower {l : List (Nat × Cell)} {a b : Nat} (hab : b ≤ a)
    (h : cellsCanonicalAbove (some a) l = true) : cellsCanonicalAbove (some b) l = true := by
  cases l with
  | nil => rfl
  | cons c l =>
    simp only [cellsCanonicalAbove, Bool.and_eq_true, decide_eq_true_eq] at h ⊢
    exact ⟨⟨by omega, h.1.2⟩, h.2⟩

/-- Entries of a canonical list lie above its bound. -/
theorem canonical_above {l : List (Nat × Cell)} {b : Nat} (h : cellsCanonicalAbove (some b) l = true) :
    ∀ c ∈ l, b < c.1 := by
  induction l generalizing b with
  | nil => simp
  | cons c l ih =>
    simp only [cellsCanonicalAbove, Bool.and_eq_true, decide_eq_true_eq] at h
    intro x hx
    rcases List.mem_cons.mp hx with rfl | hx
    · exact h.1.1
    · exact Nat.lt_trans h.1.1 (ih h.2 x hx)

theorem canonical_erase {l : List (Nat × Cell)} (a : Nat) {lo : Option Nat} (h : cellsCanonicalAbove lo l = true) :
    cellsCanonicalAbove lo (eraseCell l a) = true := by
  induction l generalizing lo with
  | nil => rfl
  | cons c l ih =>
    simp only [cellsCanonicalAbove, Bool.and_eq_true] at h
    simp only [eraseCell]
    split
    · cases lo with
      | none => exact canonical_weaken (ih h.2)
      | some b => exact canonical_lower (Nat.le_of_lt (by simpa using h.1.1)) (ih h.2)
    · simp only [cellsCanonicalAbove, Bool.and_eq_true]
      exact ⟨h.1, ih h.2⟩

theorem canonical_insert {l : List (Nat × Cell)} {a : Nat} {v : Cell} (hv : v ≠ 0) {lo : Option Nat}
    (ha : ∀ c ∈ l, c.1 ≠ a) (hlo : ∀ b, lo = some b → b < a) (h : cellsCanonicalAbove lo l = true) :
    cellsCanonicalAbove lo (insertCell l a v) = true := by
  induction l generalizing lo with
  | nil => cases lo <;> simp_all [insertCell, cellsCanonicalAbove]
  | cons c l ih =>
    simp only [cellsCanonicalAbove, Bool.and_eq_true] at h
    simp only [insertCell]
    split
    · next hlt =>
      simp only [cellsCanonicalAbove, Bool.and_eq_true, decide_eq_true_eq]
      refine ⟨⟨?_, by simpa using hv⟩, ⟨hlt, h.1.2⟩, h.2⟩
      cases lo with
      | none => trivial
      | some b => simpa using hlo b rfl
    · next hge =>
      simp only [cellsCanonicalAbove, Bool.and_eq_true]
      refine ⟨h.1, ih (fun x hx => ha x (by simp [hx])) (fun b hb => ?_) h.2⟩
      have hne : c.1 ≠ a := ha c (by simp)
      cases hb
      omega

theorem wf_iff (m : Memory) : m.wf = true ↔
    cellsCanonicalAbove none m.cells = true ∧ (∀ c ∈ m.cells, c.1 < m.len) ∧ m.len ≤ u64Max + 1 := by
  simp [Memory.wf, and_assoc]

/-- Growth keeps the canonical form. -/
theorem wf_touch {m : Memory} {a : Nat} (h : m.wf = true) (ha : a ≤ u64Max) : (m.touch a).wf = true := by
  obtain ⟨h1, h2, h3⟩ := (wf_iff m).mp h
  refine (wf_iff _).mpr ⟨h1, fun c hc => ?_, ?_⟩
  · have := h2 c hc
    simp only [len_touch]
    omega
  · simp only [len_touch]
    omega

/-- A write keeps the canonical form. -/
theorem wf_write {m : Memory} {a : Nat} (v : Cell) (h : m.wf = true) (ha : a ≤ u64Max) : (m.write a v).wf = true := by
  obtain ⟨h1, h2, h3⟩ := (wf_iff m).mp h
  refine (wf_iff _).mpr ⟨?_, fun c hc => ?_, ?_⟩
  · simp only [Memory.write]
    split
    · exact canonical_erase a h1
    · next hv => exact canonical_insert hv (not_mem_eraseCell _ _) (by simp) (canonical_erase a h1)
  · simp only [len_write]
    have hmem : c = (a, v) ∨ c ∈ m.cells := by
      simp only [Memory.write] at hc
      split at hc
      · exact .inr (mem_of_mem_eraseCell _ _ _ hc)
      · exact (mem_insertCell _ _ _ _ hc).imp_right (mem_of_mem_eraseCell _ _ _)
    rcases hmem with rfl | hc
    · simp only; omega
    · have := h2 c hc; omega
  · simp only [len_write]
    omega

/-- An index is at most `U64_MAX`. -/
theorem toNat_le_u64Max (a : Addr) : a.toNat ≤ u64Max := by
  have := a.isLt
  simp only [u64Max]
  omega

/-! ## Load -/

theorem canonical_romCells (rom : List Cell) (a : Nat) {lo : Option Nat} (hlo : ∀ b, lo = some b → b < a) :
    cellsCanonicalAbove lo (romCells a rom) = true := by
  induction rom generalizing a lo with
  | nil => rfl
  | cons v rom ih =>
    simp only [romCells]
    split
    · exact ih (a + 1) (fun b hb => Nat.lt_succ_of_lt (hlo b hb))
    · next hv =>
      simp only [cellsCanonicalAbove, Bool.and_eq_true]
      refine ⟨⟨?_, by simpa using hv⟩, ih (a + 1) (by simp)⟩
      cases lo with
      | none => trivial
      | some b => simpa using hlo b rfl

theorem romCells_bounds (rom : List Cell) (a : Nat) : ∀ c ∈ romCells a rom, a ≤ c.1 ∧ c.1 < a + rom.length := by
  induction rom generalizing a with
  | nil => simp [romCells]
  | cons v rom ih =>
    intro c hc
    simp only [romCells] at hc
    simp only [List.length_cons]
    split at hc
    · have := ih (a + 1) c hc; omega
    · rcases List.mem_cons.mp hc with rfl | hc
      · simp
      · have := ih (a + 1) c hc; omega

/-- Load builds a canonical memory, for any ROM an index can reach. -/
theorem wf_load (rom : List Cell) (h : rom.length ≤ u64Max + 1) : (State.load rom).mem.wf = true := by
  refine (wf_iff _).mpr ⟨canonical_romCells rom 0 (by simp), fun c hc => ?_, h⟩
  have := (romCells_bounds rom 0 c hc).2
  rwa [Nat.zero_add] at this

theorem lookupCell_not_listed {l : List (Nat × Cell)} {a : Nat} (h : ∀ c ∈ l, c.1 ≠ a) : lookupCell l a = 0 := by
  induction l with
  | nil => rfl
  | cons c l ih =>
    have hc : a ≠ c.1 := fun e => h c (by simp) e.symm
    simpa [lookupCell, hc] using ih (fun x hx => h x (by simp [hx]))

theorem lookupCell_romCells (rom : List Cell) (b k : Nat) : lookupCell (romCells b rom) (b + k) = rom.getD k 0 := by
  induction rom generalizing b k with
  | nil => simp [romCells, lookupCell]
  | cons v rom ih =>
    cases k with
    | zero =>
      simp only [romCells]
      split
      · next hv =>
        rw [lookupCell_not_listed (fun c hc => by have := romCells_bounds rom (b + 1) c hc; omega)]
        simp [hv]
      · simp [lookupCell]
    | succ k =>
      have e : b + (k + 1) = b + 1 + k := by omega
      simp only [romCells]
      split
      · rw [e, ih]; simp
      · simp only [lookupCell]
        rw [if_neg (by omega), e, ih]; simp

/-- R24: after Load, `M` is the ROM, and 0 from its end on. -/
theorem read_load (rom : List Cell) (a : Nat) : (State.load rom).mem.read a = rom.getD a 0 := by
  simpa [Memory.read, State.load] using lookupCell_romCells rom 0 a

/-- Load of the empty ROM is the reset state. -/
theorem load_nil : State.load [] = State.reset := rfl

/-- The memory of the reset state has the canonical form. -/
theorem wf_reset : State.reset.mem.wf = true := rfl

end Sys2Proof.Machine
end

