-- ==== Sys2Proof/Laws/Ops.lean ====
section
/-!
SUPPORT. What each shared operation and operand form comes to: in closed form where it succeeds, and as a frame in every
case (`Consumes`, what fetching and resolving may change).
-/

namespace Sys2Proof.Machine

open Sys2Proof

/-! ## Results -/

section Results
variable {α β : Type}

@[simp] theorem andThen_ok (v : α) (s : State) (f : α → State → Res β) : (Res.ok v s).andThen f = f v s := rfl
@[simp] theorem andThen_raised (c : Cause) (s : State) (f : α → State → Res β) :
    (Res.raised c s).andThen f = .raised c s := rfl
@[simp] theorem andThen_stuck (r : Fault) (f : α → State → Res β) : (Res.stuck r).andThen f = .stuck r := rfl

theorem andThen_assoc {γ : Type} (r : Res α) (f : α → State → Res β) (g : β → State → Res γ) :
    (r.andThen f).andThen g = r.andThen fun v s => (f v s).andThen g := by
  cases r <;> rfl

theorem andThen_eq_ok {r : Res α} {f : α → State → Res β} {v : β} {t : State} :
    r.andThen f = .ok v t ↔ ∃ u s, r = .ok u s ∧ f u s = .ok v t := by
  cases r <;> simp

@[simp] theorem outcome_ok (u : Unit) (s : State) : (Res.ok u s).outcome = .next s := rfl
@[simp] theorem outcome_raised (c : Cause) (s : State) : (Res.raised c s : Res Unit).outcome = .next (s.raise c) := rfl
@[simp] theorem outcome_stuck (r : Fault) : (Res.stuck r : Res Unit).outcome = .fault r := rfl

end Results

/-! ## Cells and indices -/

/-- A value in `I64` is the value of its cell. -/
theorem toInt_cellOfInt {v : Int} (h : InI64 v) : (cellOfInt v).toInt = v := by
  simp only [InI64, i64Min, i64Max] at h
  rw [BitVec.toInt_ofInt, Int.bmod_def]
  split <;> omega

theorem inI64_toInt (v : Cell) : InI64 v.toInt := by
  have h1 := v.le_toInt
  have h2 := v.toInt_lt
  simp only [InI64, i64Min, i64Max]
  omega

@[simp] theorem cellOfInt_toInt (v : Cell) : cellOfInt v.toInt = v := BitVec.ofInt_toInt

/-- A cell that is not negative is the index of the same value. -/
theorem toNat_of_toInt_nonneg {v : Cell} (h : 0 ≤ v.toInt) : v.toNat = v.toInt.toNat := by
  have := v.isLt
  rw [BitVec.toInt_eq_toNat_cond] at h ⊢
  split at h <;> split <;> omega

/-- A cell that is not negative is at most `I64_MAX` as an index. -/
theorem toNat_le_i64Max {v : Cell} (h : 0 ≤ v.toInt) : v.toNat ≤ i64Max.toNat := by
  have := (inI64_toInt v).2
  rw [toNat_of_toInt_nonneg h]
  omega

theorem isTrue_iff (x : Cell) : isTrue x = true ↔ x.toInt ≠ 0 := by
  rw [isTrue, bne_iff_ne, not_iff_not]
  exact ⟨fun h => by rw [h]; rfl, fun h => by rw [← cellOfInt_toInt x, h]; rfl⟩

theorem equalTo_iff (x y : Cell) : equalTo x y = true ↔ x.toInt = y.toInt := by
  rw [equalTo, beq_iff_eq]
  exact ⟨fun h => by rw [h], fun h => by rw [← cellOfInt_toInt x, h, cellOfInt_toInt]⟩

theorem lessThan_iff (x y : Cell) : lessThan x y = true ↔ x.toInt < y.toInt := by
  simp [lessThan]

/-- `pc + 1`, while it does not pass `U64_MAX`. -/
theorem toNat_add_one {a : Addr} (h : a.toNat + 1 ≤ u64Max) : (a + 1).toNat = a.toNat + 1 := by
  simp only [u64Max] at h
  rw [BitVec.toNat_add, show (1 : Addr).toNat = 1 from rfl]
  omega

theorem ofNat_toNat_add_one (a : Addr) : BitVec.ofNat 64 (a.toNat + 1) = a + 1 := by
  apply BitVec.eq_of_toNat_eq
  simp [BitVec.toNat_ofNat, BitVec.toNat_add]

/-! ## Primitives in closed form -/

@[simp] theorem defaults_unbounded : params.Unbounded := ⟨rfl, rfl, rfl⟩

theorem memHolds_unbounded {p : Params} (hp : p.memCapacity = none) (a : Nat) : memHolds p a = true := by
  simp [memHolds, hp]

theorem memHolds_capacity {p : Params} {c : Nat} (hp : p.memCapacity = some c) (a : Nat) :
    memHolds p a = true ↔ a < c := by
  simp [memHolds, hp]

theorem memRead_holds {p : Params} {a : Nat} (h : memHolds p a = true) (s : State) :
    memRead p a s = .ok (s.mem.read a) { s with mem := s.mem.touch a } := by
  simp [memRead, h]

theorem memWrite_holds {p : Params} {a : Nat} (h : memHolds p a = true) (v : Cell) (s : State) :
    memWrite p a v s = .ok () { s with mem := s.mem.write a v } := by
  simp [memWrite, h]

theorem memRead_unbounded {p : Params} (hp : p.memCapacity = none) (a : Nat) (s : State) :
    memRead p a s = .ok (s.mem.read a) { s with mem := s.mem.touch a } :=
  memRead_holds (memHolds_unbounded hp a) s

theorem memWrite_unbounded {p : Params} (hp : p.memCapacity = none) (a : Nat) (v : Cell) (s : State) :
    memWrite p a v s = .ok () { s with mem := s.mem.write a v } :=
  memWrite_holds (memHolds_unbounded hp a) v s

theorem outEnqueue_unbounded {p : Params} (hp : p.oqDepth = none) (v : Cell) (s : State) :
    outEnqueue p v s = .ok () { s with oq := s.oq ++ [v] } := by
  simp [outEnqueue, hasRoom, hp]

theorem fit64_fits (p : Params) {v : Int} (h : InI64 v) (s : State) : fit64 p v s = .ok (cellOfInt v) s := by
  simp only [fit64, if_pos h]

theorem fit64_fault {p : Params} (hp : p.overflow = .fault) {v : Int} (h : ¬ InI64 v) (s : State) :
    fit64 p v s = .raised .arithmeticOverflow s := by
  simp only [fit64, if_neg h, hp]

theorem fit64_wrap {p : Params} (hp : p.overflow = .wrap) (v : Int) (s : State) :
    fit64 p v s = .ok (cellOfInt v) s := by
  simp only [fit64, hp]
  split <;> rfl

/-- R53: consuming a cell gives its value and moves `pc` on. -/
theorem fetchWord_holds {p : Params} {s : State} (hp : memHolds p s.pc.toNat = true) (h : PcRoom 1 s) :
    fetchWord p s = .ok (s.mem.read s.pc.toNat) (afterCell s) := by
  simp only [PcRoom] at h
  simp only [fetchWord, memRead_holds hp, andThen_ok, fitPc, if_pos h, ofNat_toNat_add_one]
  rfl

theorem fetchWord_room {p : Params} (hp : p.memCapacity = none) {s : State} (h : PcRoom 1 s) :
    fetchWord p s = .ok (s.mem.read s.pc.toNat) (afterCell s) :=
  fetchWord_holds (memHolds_unbounded hp _) h

/-- R13: in `wrap` mode every cell can be consumed. -/
theorem fetchWord_wrap {p : Params} (hp : p.memCapacity = none) (hw : p.overflow = .wrap) (s : State) :
    fetchWord p s = .ok (s.mem.read s.pc.toNat) (afterCell s) := by
  simp only [fetchWord, memRead_unbounded hp, andThen_ok, fitPc, hw, ofNat_toNat_add_one, ite_self]
  rfl

/-- R179: in `fault` mode a cell at `pc = U64_MAX` raises. -/
theorem fetchWord_top {p : Params} (hp : p.memCapacity = none) (hf : p.overflow = .fault) {s : State}
    (h : ¬ PcRoom 1 s) : fetchWord p s = .raised .pcOverflow (stuckAtTop s) := by
  simp only [PcRoom] at h
  simp only [fetchWord, memRead_unbounded hp, andThen_ok, fitPc, if_neg h, hf]
  rfl

/-- R46: what a read at or above the capacity comes to. -/
theorem memRead_exhausted {p : Params} {c a : Nat} (hp : p.memCapacity = some c) (h : c ≤ a) (s : State) :
    memRead p a s = .stuck (.memoryExhausted a) := by
  simp [memRead, memHolds, hp, Nat.not_lt.mpr h]

/-- R46: what a write at or above the capacity comes to. -/
theorem memWrite_exhausted {p : Params} {c a : Nat} (hp : p.memCapacity = some c) (h : c ≤ a) (v : Cell) (s : State) :
    memWrite p a v s = .stuck (.memoryExhausted a) := by
  simp [memWrite, memHolds, hp, Nat.not_lt.mpr h]

/-! ## Operand forms in closed form -/

theorem checkPointer_nonneg {v : Cell} (h : 0 ≤ v.toInt) (s : State) : checkPointer v s = .ok v s := by
  simp only [checkPointer, if_neg (not_lt.mpr h)]

theorem readAt_eq_memRead (p : Params) {v : Cell} (h : 0 ≤ v.toInt) (s : State) :
    readAt p v s = memRead p v.toInt.toNat s := by
  simp only [readAt, checkPointer_nonneg h, andThen_ok, toNat_of_toInt_nonneg h]

/-- The sum of a Relative operand that names an address. -/
theorem relativeSum_fits (p : Params) {raw : Cell} {s : State} (h0 : 0 ≤ raw.toInt + s.rb.toInt)
    (h1 : raw.toInt + s.rb.toInt ≤ i64Max) :
    relativeSum p raw s = .ok (cellOfInt (raw.toInt + s.rb.toInt)) s :=
  fit64_fits p ⟨by simp only [i64Min]; omega, h1⟩ s

theorem toInt_relativeSum {raw rb : Cell} (h0 : 0 ≤ raw.toInt + rb.toInt) (h1 : raw.toInt + rb.toInt ≤ i64Max) :
    (cellOfInt (raw.toInt + rb.toInt)).toInt = raw.toInt + rb.toInt :=
  toInt_cellOfInt ⟨by simp only [i64Min]; omega, h1⟩

theorem consumeOperand_holds {p : Params} {o : Operand} {m : Mode} (hm : o.mode = .known m) {s : State}
    (hp : memHolds p s.pc.toNat = true) (h : PcRoom 1 s) : consumeOperand p o s = .ok m (afterCell s) := by
  simp only [consumeOperand, hm, nextMode, andThen_ok, fetchWord_holds hp h]

theorem consumeOperand_room {p : Params} (hp : p.memCapacity = none) {o : Operand} {m : Mode} (hm : o.mode = .known m)
    {s : State} (h : PcRoom 1 s) : consumeOperand p o s = .ok m (afterCell s) :=
  consumeOperand_holds hm (memHolds_unbounded hp _) h

/-- R60: a readable operand that names no address gives its raw word. -/
theorem signedOperand_immediate {p : Params} {o : Operand} {s : State} (h : Readable o s)
    (hp : memHolds p s.pc.toNat = true) (hpc : PcRoom 1 s) (ha : readAddress o s = none) :
    signedOperand p o s = .ok (readValue o s) (afterRead o s) := by
  obtain ⟨f, raw⟩ := o
  cases f with
  | unrecognized d => exact h.elim
  | known m =>
    cases m with
    | immediate =>
      rw [signedOperand, consumeOperand_holds rfl hp hpc, andThen_ok]
      rfl
    | position => cases ha
    | relative => cases ha

/-- R60: a readable operand that names an address reads memory there, its cell consumed. -/
theorem signedOperand_memory {p : Params} {o : Operand} {s : State} {a : Nat} (h : Readable o s)
    (hp : memHolds p s.pc.toNat = true) (hpc : PcRoom 1 s) (ha : readAddress o s = some a) :
    signedOperand p o s = memRead p a (afterCell s) := by
  obtain ⟨f, raw⟩ := o
  cases f with
  | unrecognized d => exact h.elim
  | known m =>
    cases m with
    | immediate => cases ha
    | position =>
      rw [signedOperand, consumeOperand_holds rfl hp hpc, andThen_ok, readByMode, readAt_eq_memRead p h.1]
      cases ha
      rfl
    | relative =>
      obtain ⟨h0, h1⟩ := h
      simp only [exactAddress] at h0 h1
      have e := toInt_relativeSum h0 h1
      rw [signedOperand, consumeOperand_holds rfl hp hpc, andThen_ok, readByMode,
        relativeSum_fits p (s := afterCell s) h0 h1, andThen_ok]
      simp only [afterCell_rb]
      rw [readAt_eq_memRead p (by rw [e]; exact h0), e]
      cases ha
      rfl

/-- R60: a readable operand whose cells the memory holds gives its value and leaves the state `afterRead`. -/
theorem signedOperand_holds {p : Params} {o : Operand} {s : State} (h : Readable o s)
    (hp : memHolds p s.pc.toNat = true) (hpc : PcRoom 1 s) (hr : ∀ a, readAddress o s = some a → memHolds p a = true) :
    signedOperand p o s = .ok (readValue o s) (afterRead o s) := by
  cases ha : readAddress o s with
  | none => exact signedOperand_immediate h hp hpc ha
  | some a =>
    rw [signedOperand_memory h hp hpc ha, memRead_holds (hr a ha)]
    simp only [readValue, afterRead, ha]
    rfl

theorem signedOperand_readable {p : Params} (hp : p.memCapacity = none) {o : Operand} {s : State} (h : Readable o s)
    (hpc : PcRoom 1 s) : signedOperand p o s = .ok (readValue o s) (afterRead o s) :=
  signedOperand_holds h (memHolds_unbounded hp _) hpc fun a _ => memHolds_unbounded hp a

/-- R62: a writable operand gives its address and leaves its cell consumed. -/
theorem writeOperand_holds {p : Params} {o : Operand} {s : State} (h : Writable o s) (hp : memHolds p s.pc.toNat = true)
    (hpc : PcRoom 1 s) : ∃ d : Addr, writeOperand p o s = .ok d (afterCell s) ∧ d.toNat = writeAddress o s := by
  obtain ⟨f, raw⟩ := o
  cases f with
  | unrecognized d => exact h.elim
  | known m =>
    rw [writeOperand, consumeOperand_holds rfl hp hpc, andThen_ok]
    obtain ⟨h0, h1⟩ := h
    cases m with
    | immediate => exact ⟨raw, checkPointer_nonneg h0 _, toNat_of_toInt_nonneg h0⟩
    | position => exact ⟨raw, checkPointer_nonneg h0 _, toNat_of_toInt_nonneg h0⟩
    | relative =>
      simp only [exactAddress] at h0 h1
      have e := toInt_relativeSum h0 h1
      refine ⟨cellOfInt (raw.toInt + s.rb.toInt), ?_, ?_⟩
      · have h0' : 0 ≤ raw.toInt + (afterCell s).rb.toInt := h0
        have h1' : raw.toInt + (afterCell s).rb.toInt ≤ i64Max := h1
        rw [addressByMode, relativeSum_fits p h0' h1', andThen_ok]
        exact checkPointer_nonneg (by rw [afterCell_rb, e]; exact h0) _
      · rw [toNat_of_toInt_nonneg (by rw [e]; exact h0), e]
        rfl

theorem writeOperand_writable {p : Params} (hp : p.memCapacity = none) {o : Operand} {s : State} (h : Writable o s)
    (hpc : PcRoom 1 s) : ∃ d : Addr, writeOperand p o s = .ok d (afterCell s) ∧ d.toNat = writeAddress o s :=
  writeOperand_holds h (memHolds_unbounded hp _) hpc

/-! ## What resolving one operand leaves to the next -/

@[simp] theorem afterRead_read (o : Operand) (s : State) (a : Nat) : (afterRead o s).mem.read a = s.mem.read a := by
  unfold afterRead
  split <;> rfl

@[simp] theorem afterCell_read (s : State) (a : Nat) : (afterCell s).mem.read a = s.mem.read a := rfl

/-- Resolving depends on a state through `rb` and the cells' values only. -/
theorem readValue_congr (o : Operand) {s t : State} (hrb : t.rb = s.rb) (hm : ∀ a, t.mem.read a = s.mem.read a) :
    readValue o t = readValue o s := by
  have h : readAddress o t = readAddress o s := by simp only [readAddress, hrb]
  simp only [readValue, h]
  split
  · exact hm _
  · rfl

@[simp] theorem readValue_afterRead (o q : Operand) (s : State) : readValue o (afterRead q s) = readValue o s :=
  readValue_congr o (by simp) (by simp)

@[simp] theorem readable_afterRead (o q : Operand) (s : State) : Readable o (afterRead q s) ↔ Readable o s := by
  simp only [Readable, afterRead_rb]

@[simp] theorem writable_afterRead (o q : Operand) (s : State) : Writable o (afterRead q s) ↔ Writable o s := by
  simp only [Writable, afterRead_rb]

@[simp] theorem writeAddress_afterRead (o q : Operand) (s : State) :
    writeAddress o (afterRead q s) = writeAddress o s := by
  simp only [writeAddress, afterRead_rb]

theorem pcRoom_one {n : Nat} {s : State} (h : PcRoom (n + 1) s) : PcRoom 1 s := by
  simp only [PcRoom] at *
  omega

theorem pcRoom_afterRead {n : Nat} {o : Operand} {s : State} (h : PcRoom (n + 1) s) : PcRoom n (afterRead o s) := by
  simp only [PcRoom, afterRead_pc] at *
  rw [toNat_add_one (by omega)]
  omega

/-! ## Formats in closed form -/

theorem readAddress_congr (o : Operand) {s t : State} (h : t.rb = s.rb) : readAddress o t = readAddress o s := by
  simp only [readAddress, h]

/-- R63 format F3, where every operand resolves and the memory holds the cells consumed and read. -/
theorem resolveF3_holds {p : Params} {a b w : Operand} {s : State} (h : ReadyF3 a b w s)
    (hp : ∀ k, k < 3 → memHolds p (s.pc.toNat + k) = true)
    (hra : ∀ x, readAddress a s = some x → memHolds p x = true)
    (hrb : ∀ x, readAddress b s = some x → memHolds p x = true) :
    ∃ d : Addr, resolveF3 p a b w s = .ok (readValue a s, readValue b s, d) (afterF3 a b s) ∧
      d.toNat = writeAddress w s := by
  obtain ⟨ha, hb, hw, hpc⟩ := h
  have h2 := pcRoom_afterRead (o := a) hpc
  have h1 := pcRoom_afterRead (o := b) h2
  have e1 : (afterRead a s).pc.toNat = s.pc.toNat + 1 := by
    rw [afterRead_pc, toNat_add_one (pcRoom_one hpc)]
  have e2 : (afterRead b (afterRead a s)).pc.toNat = s.pc.toNat + 2 := by
    rw [afterRead_pc, toNat_add_one (pcRoom_one h2), e1]
  obtain ⟨d, hd, e⟩ := writeOperand_holds (p := p) (o := w) (s := afterRead b (afterRead a s)) (by simpa using hw)
    (by rw [e2]; exact hp 2 (by decide)) h1
  refine ⟨d, ?_, by simpa using e⟩
  rw [resolveF3, signedOperand_holds ha (hp 0 (by decide)) (pcRoom_one hpc) hra, andThen_ok,
    signedOperand_holds (by simpa using hb) (by rw [e1]; exact hp 1 (by decide)) (pcRoom_one h2)
      (by rw [readAddress_congr b (t := afterRead a s) (s := s) (by simp)]; exact hrb), andThen_ok, hd, andThen_ok]
  simp [afterF3]

theorem resolveF3_ready {p : Params} (hp : p.memCapacity = none) {a b w : Operand} {s : State} (h : ReadyF3 a b w s) :
    ∃ d : Addr, resolveF3 p a b w s = .ok (readValue a s, readValue b s, d) (afterF3 a b s) ∧
      d.toNat = writeAddress w s :=
  resolveF3_holds h (fun _ _ => memHolds_unbounded hp _) (fun _ _ => memHolds_unbounded hp _)
    fun _ _ => memHolds_unbounded hp _

/-- R63 format F2J, where both operands resolve. -/
theorem resolveF2J_ready {p : Params} (hp : p.memCapacity = none) {a t : Operand} {s : State} (h : ReadyF2J a t s) :
    resolveF2J p a t s = .ok (readValue a s, readValue t s) (afterF2J a t s) := by
  obtain ⟨ha, ht, hv, hpc⟩ := h
  have h1 := pcRoom_afterRead (o := a) hpc
  rw [resolveF2J, signedOperand_readable hp ha (pcRoom_one hpc), andThen_ok, unsignedOperand,
    signedOperand_readable hp (by simpa using ht) h1, andThen_ok, readValue_afterRead]
  simp only [checkTarget, if_neg (not_lt.mpr hv), andThen_ok]
  rfl

/-! ## The frame of fetching and resolving -/

/-- What consuming cells and resolving operands may change: `pc`, and `MEMLEN` upwards. -/
structure Consumes (s t : State) : Prop where
  rb : t.rb = s.rb
  state : t.state = s.state
  iq : t.iq = s.iq
  oq : t.oq = s.oq
  cells : t.mem.cells = s.mem.cells
  len : s.mem.len ≤ t.mem.len
  bound : s.mem.len ≤ u64Max + 1 → t.mem.len ≤ u64Max + 1

theorem Consumes.refl (s : State) : Consumes s s := ⟨rfl, rfl, rfl, rfl, rfl, Nat.le_refl _, id⟩

theorem Consumes.trans {s t u : State} (h : Consumes s t) (k : Consumes t u) : Consumes s u :=
  ⟨k.rb.trans h.rb, k.state.trans h.state, k.iq.trans h.iq, k.oq.trans h.oq, k.cells.trans h.cells,
    Nat.le_trans h.len k.len, fun b => k.bound (h.bound b)⟩

theorem Consumes.read {s t : State} (h : Consumes s t) (a : Nat) : t.mem.read a = s.mem.read a := by
  simp only [Memory.read, h.cells]

theorem Consumes.wf {s t : State} (h : Consumes s t) (hwf : s.mem.wf = true) : t.mem.wf = true := by
  obtain ⟨h1, h2, h3⟩ := (wf_iff _).mp hwf
  refine (wf_iff _).mpr ⟨by rw [h.cells]; exact h1, fun c hc => ?_, h.bound h3⟩
  rw [h.cells] at hc
  exact Nat.lt_of_lt_of_le (h2 c hc) h.len

/-- The state a procedure leaves, whether it gives a value or raises, is related to the one it began in. -/
def Res.Leaves {α : Type} (R : State → State → Prop) (s : State) : Res α → Prop
  | .ok _ t => R s t
  | .raised _ t => R s t
  | .stuck _ => True

theorem leaves_andThen {α β : Type} {s : State} {r : Res α} {f : α → State → Res β} (hr : r.Leaves Consumes s)
    (hf : ∀ v t, (f v t).Leaves Consumes t) : (r.andThen f).Leaves Consumes s := by
  cases r with
  | ok v t =>
    have := hf v t
    simp only [andThen_ok]
    revert this
    cases f v t with
    | ok u z => exact fun k => Consumes.trans hr k
    | raised c z => exact fun k => Consumes.trans hr k
    | stuck r => exact fun _ => trivial
  | raised c t => exact hr
  | stuck r => trivial

theorem memRead_consumes (p : Params) {a : Nat} (ha : a ≤ u64Max) (s : State) :
    (memRead p a s).Leaves Consumes s := by
  simp only [memRead]
  split
  · refine ⟨rfl, rfl, rfl, rfl, rfl, ?_, fun h => ?_⟩
    · simp only [len_touch]; omega
    · simp only [len_touch]; omega
  · trivial

theorem fit64_consumes (p : Params) (v : Int) (s : State) : (fit64 p v s).Leaves Consumes s := by
  simp only [fit64]
  split
  · exact Consumes.refl s
  · split <;> exact Consumes.refl s

theorem fitPc_consumes (p : Params) (v : Nat) (s : State) : (fitPc p v s).Leaves Consumes s := by
  simp only [fitPc]
  split
  · exact Consumes.refl s
  · split <;> exact Consumes.refl s

theorem fetchWord_consumes (p : Params) (s : State) : (fetchWord p s).Leaves Consumes s :=
  leaves_andThen (memRead_consumes p (toNat_le_u64Max _) s) fun _ t =>
    leaves_andThen (fitPc_consumes p _ t) fun _ _ => ⟨rfl, rfl, rfl, rfl, rfl, Nat.le_refl _, id⟩

theorem nextMode_consumes (f : ModeField) (s : State) : (nextMode f s).Leaves Consumes s := by
  cases f <;> exact Consumes.refl s

theorem checkPointer_consumes (v : Cell) (s : State) : (checkPointer v s).Leaves Consumes s := by
  simp only [checkPointer]
  split <;> exact Consumes.refl s

theorem readAt_consumes (p : Params) (v : Cell) (s : State) : (readAt p v s).Leaves Consumes s :=
  leaves_andThen (checkPointer_consumes v s) fun a t => memRead_consumes p (toNat_le_u64Max a) t

theorem readByMode_consumes (p : Params) (m : Mode) (raw : Cell) (s : State) :
    (readByMode p m raw s).Leaves Consumes s := by
  cases m with
  | immediate => exact Consumes.refl s
  | position => exact readAt_consumes p raw s
  | relative => exact leaves_andThen (fit64_consumes p _ s) fun v t => readAt_consumes p v t

theorem addressByMode_consumes (p : Params) (m : Mode) (raw : Cell) (s : State) :
    (addressByMode p m raw s).Leaves Consumes s := by
  cases m with
  | immediate => exact checkPointer_consumes raw s
  | position => exact checkPointer_consumes raw s
  | relative => exact leaves_andThen (fit64_consumes p _ s) fun v t => checkPointer_consumes v t

theorem consumeOperand_consumes (p : Params) (o : Operand) (s : State) : (consumeOperand p o s).Leaves Consumes s :=
  leaves_andThen (nextMode_consumes _ s) fun _ t =>
    leaves_andThen (fetchWord_consumes p t) fun _ u => Consumes.refl u

theorem signedOperand_consumes (p : Params) (o : Operand) (s : State) : (signedOperand p o s).Leaves Consumes s :=
  leaves_andThen (consumeOperand_consumes p o s) fun m t => readByMode_consumes p m o.raw t

theorem unsignedOperand_consumes (p : Params) (o : Operand) (s : State) : (unsignedOperand p o s).Leaves Consumes s :=
  leaves_andThen (signedOperand_consumes p o s) fun v t => by
    simp only [checkTarget]
    split <;> exact Consumes.refl t

theorem writeOperand_consumes (p : Params) (o : Operand) (s : State) : (writeOperand p o s).Leaves Consumes s :=
  leaves_andThen (consumeOperand_consumes p o s) fun m t => addressByMode_consumes p m o.raw t

theorem resolveF3_consumes (p : Params) (a b w : Operand) (s : State) :
    (resolveF3 p a b w s).Leaves Consumes s :=
  leaves_andThen (signedOperand_consumes p a s) fun _ t =>
    leaves_andThen (signedOperand_consumes p b t) fun _ u =>
      leaves_andThen (writeOperand_consumes p w u) fun _ z => Consumes.refl z

theorem resolveF2J_consumes (p : Params) (a t : Operand) (s : State) : (resolveF2J p a t s).Leaves Consumes s :=
  leaves_andThen (signedOperand_consumes p a s) fun _ u =>
    leaves_andThen (unsignedOperand_consumes p t u) fun _ z => Consumes.refl z

/-! ## Addresses that resolution gives -/

/-- What an accepted pointer is. -/
theorem checkPointer_ok {v : Cell} {d : Addr} {s t : State} (h : checkPointer v s = .ok d t) :
    d = v ∧ t = s ∧ 0 ≤ v.toInt := by
  simp only [checkPointer] at h
  split at h
  · cases h
  · cases h; exact ⟨rfl, rfl, by omega⟩

/-- A write address is in `0 .. I64_MAX` (R62). -/
theorem writeOperand_range {p : Params} {o : Operand} {s t : State} {d : Addr} (h : writeOperand p o s = .ok d t) :
    d.toNat ≤ i64Max.toNat := by
  obtain ⟨m, u, -, h⟩ := andThen_eq_ok.mp h
  have key : ∀ {v : Cell} {x : State}, checkPointer v x = .ok d t → d.toNat ≤ i64Max.toNat := fun k => by
    obtain ⟨rfl, -, h0⟩ := checkPointer_ok k
    exact toNat_le_i64Max h0
  cases m with
  | immediate => exact key h
  | position => exact key h
  | relative =>
    obtain ⟨v, x, -, h⟩ := andThen_eq_ok.mp h
    exact key h

theorem resolveF3_range {p : Params} {a b w : Operand} {s t : State} {o : Cell × Cell × Addr}
    (h : resolveF3 p a b w s = .ok o t) : o.2.2.toNat ≤ i64Max.toNat := by
  obtain ⟨x, u, -, h⟩ := andThen_eq_ok.mp h
  obtain ⟨y, v, -, h⟩ := andThen_eq_ok.mp h
  obtain ⟨d, z, hd, h⟩ := andThen_eq_ok.mp h
  cases h
  exact writeOperand_range hd

end Sys2Proof.Machine
end

