-- ==== Sys2Proof/Laws/Encoding.lean ====
section
/-!
SUPPORT. The opcode map read in both directions, and the digits of an instruction word.
-/

namespace Sys2Proof

/-- R64: a row is selected by its own opcode value. -/
@[simp] theorem ofCode_code (o : Opcode) : Opcode.ofCode o.code = some o := by
  cases o <;> rfl

/-- The row selected by a value has that value as its opcode. -/
theorem code_of_ofCode {n : Nat} {o : Opcode} (h : Opcode.ofCode n = some o) : o.code = n := by
  have := List.find?_some h
  simpa using this

theorem ofCode_eq_some {n : Nat} {o : Opcode} : Opcode.ofCode n = some o ↔ o.code = n :=
  ⟨code_of_ofCode, fun h => h ▸ ofCode_code o⟩

/-- A value that is no row's selects none. -/
theorem ofCode_eq_none {n : Nat} : Opcode.ofCode n = none ↔ ∀ o : Opcode, o.code ≠ n := by
  rw [Option.eq_none_iff_forall_ne_some]
  exact forall_congr' fun o => not_congr ofCode_eq_some

theorem Opcode.code_lt (o : Opcode) : o.code < opcodeRadix := by
  cases o <;> decide

theorem Opcode.arity_le (o : Opcode) : o.arity ≤ maxOperands := by
  cases o <;> decide

theorem selectOpcode_negative {word : Cell} (h : word.toInt < 0) : selectOpcode word = .error .negativeWord := by
  simp only [selectOpcode, if_pos h]

theorem selectOpcode_row {word : Cell} (h : 0 ≤ word.toInt) {o : Opcode} (ho : o.code = word.toNat % opcodeRadix) :
    selectOpcode word = .ok o := by
  simp only [selectOpcode, if_neg (not_lt.mpr h), opcodeDigits, ← ho, ofCode_code]

theorem selectOpcode_none {word : Cell} (h : 0 ≤ word.toInt) (hn : ∀ o : Opcode, o.code ≠ word.toNat % opcodeRadix) :
    selectOpcode word = .error (.unrecognizedOpcode (word.toNat % opcodeRadix)) := by
  simp only [selectOpcode, if_neg (not_lt.mpr h), opcodeDigits, ofCode_eq_none.mpr hn]

theorem selectOpcode_eq_ok {word : Cell} {o : Opcode} :
    selectOpcode word = .ok o ↔ 0 ≤ word.toInt ∧ o.code = word.toNat % opcodeRadix := by
  refine ⟨fun h => ?_, fun h => selectOpcode_row h.1 h.2⟩
  simp only [selectOpcode] at h
  split at h
  · cases h
  · next hn =>
    split at h
    · next ho => cases h; exact ⟨not_lt.mp hn, code_of_ofCode ho⟩
    · cases h

theorem decodeWords_eq_ok {word r1 r2 r3 : Cell} {i : Instr} :
    decodeWords word r1 r2 r3 = .ok i ↔
      ∃ o, selectOpcode word = .ok o ∧ i = assemble o word.toNat r1 r2 r3 := by
  simp only [decodeWords]
  cases selectOpcode word with
  | error e => simp
  | ok o => simp [eq_comm]

/-- What decoding a list gives once the row is known and the list is long enough. -/
theorem decode_cons {word : Cell} {rest : List Cell} {o : Opcode} (h : selectOpcode word = .ok o)
    (hl : o.arity ≤ rest.length) :
    decode (word :: rest) =
      .ok (assemble o word.toNat (rest.getD 0 0) (rest.getD 1 0) (rest.getD 2 0), rest.drop o.arity) := by
  simp only [decode, h, if_neg (not_lt.mpr hl)]

/-- The row of the instruction that `assemble` builds. -/
@[simp] theorem opcode_assemble (o : Opcode) (word : Nat) (r1 r2 r3 : Cell) : (assemble o word r1 r2 r3).opcode = o := by
  cases o <;> rfl

/-- R50: an instruction has as many operands as its row's arity. -/
@[simp] theorem length_operands (i : Instr) : i.operands.length = i.opcode.arity := by
  cases i <;> rfl

/-- The mode digits, as a table. -/
@[simp] theorem modeOfDigit_digit (m : Mode) : modeOfDigit m.digit = .known m := by
  cases m <;> rfl

theorem Mode.digit_lt (m : Mode) : m.digit < modeRadix := by
  cases m <;> decide

/-- A mode field read from a decimal digit gives the digit back. -/
@[simp] theorem digit_modeOfDigit (d : Nat) : (modeOfDigit d).digit = d := by
  simp only [modeOfDigit]
  split
  · next h => exact h.symm
  · split
    · next h => exact h.symm
    · split
      · next h => exact h.symm
      · rfl

/-- A well-formed mode field is one of the three modes. -/
theorem ModeField.known_of_wf {f : ModeField} (h : f.wf = true) : ∃ m, f = .known m := by
  cases f with
  | known m => exact ⟨m, rfl⟩
  | unrecognized d => cases h

end Sys2Proof
end

