-- ==== Sys2Proof/Laws/Exec.lean ====
section
/-!
SUPPORT. What running an instruction can come to, said once for all ten (`exec_cases`), and that it always comes to a next
state. Later proofs cite these rather than unfold a meaning.
-/

namespace Sys2Proof.Machine

open Sys2Proof

variable {α : Type} {s t u : State}

/-- A next state is the state of a procedure that ended, or the fault entry of one that raised. -/
theorem outcome_eq_next {r : Res Unit} :
    r.outcome = .next t ↔ r = .ok () t ∨ ∃ c u, r = .raised c u ∧ t = u.raise c := by
  cases r with
  | ok v s => simp
  | raised c s => simp [eq_comm]
  | stuck r => simp

/-- The two ways an instruction that first resolves its operands reaches a next state. -/
theorem resolve_then {r : Res α} {f : α → State → Res Unit} (hr : r.Leaves Consumes s)
    (h : (r.andThen f).outcome = .next t) :
    (∃ c u, Consumes s u ∧ t = u.raise c) ∨ ∃ v u, r = .ok v u ∧ Consumes s u ∧ (f v u).outcome = .next t := by
  cases r with
  | ok v u => exact .inr ⟨v, u, rfl, hr, h⟩
  | raised c u =>
    simp only [andThen_raised, outcome_raised, Host.Outcome.next.injEq] at h
    exact .inl ⟨c, u, hr, h.symm⟩
  | stuck r => simp at h

/-- With `OVERFLOW_MODE = fault`, a value that passed `fit64` was in range. -/
theorem fit64_params_cases (v : Int) (s : State) :
    (InI64 v ∧ fit64 params v s = .ok (cellOfInt v) s) ∨ (¬ InI64 v ∧ fit64 params v s = .raised .arithmeticOverflow s) := by
  by_cases h : InI64 v
  · exact .inl ⟨h, fit64_fits _ h s⟩
  · exact .inr ⟨h, fit64_fault rfl h s⟩

/-- A write operand that resolves gives the address it names. -/
theorem writeOperand_params {o : Operand} {d : Addr} (h : writeOperand params o s = .ok d t) :
    d.toNat = writeAddress o s := by
  obtain ⟨m, u, hu, h⟩ := andThen_eq_ok.mp h
  have hrb : u.rb = s.rb := by
    have := consumeOperand_consumes params o s
    rw [hu] at this
    exact Consumes.rb this
  have hm : o.mode = .known m := by
    obtain ⟨f, raw⟩ := o
    cases f with
    | unrecognized d => simp [consumeOperand, nextMode] at hu
    | known k =>
      obtain ⟨x, y, hx, hu⟩ := andThen_eq_ok.mp hu
      obtain ⟨-, z, -, hz⟩ := andThen_eq_ok.mp hu
      cases hx
      cases hz
      rfl
  have key : ∀ {v : Cell} {x : State}, v.toInt = exactAddress m o.raw s.rb → checkPointer v x = .ok d t →
      d.toNat = writeAddress o s := fun hv k => by
    obtain ⟨rfl, -, h0⟩ := checkPointer_ok k
    rw [toNat_of_toInt_nonneg h0, hv]
    simp only [writeAddress, hm]
  cases m with
  | immediate => exact key rfl h
  | position => exact key rfl h
  | relative =>
    obtain ⟨v, x, hv, h⟩ := andThen_eq_ok.mp h
    rw [relativeSum, hrb] at hv
    rcases fit64_params_cases (o.raw.toInt + s.rb.toInt) u with ⟨hin, e⟩ | ⟨-, e⟩
    · rw [e] at hv
      cases hv
      exact key (toInt_cellOfInt hin) h
    · rw [e] at hv
      cases hv

/-- The address that format F3 resolves is the one its write operand names. -/
theorem resolveF3_params {a b w : Operand} {o : Cell × Cell × Addr} (h : resolveF3 params a b w s = .ok o t) :
    o.2.2.toNat = writeAddress w s := by
  obtain ⟨x, u, hu, h⟩ := andThen_eq_ok.mp h
  obtain ⟨y, v, hv, h⟩ := andThen_eq_ok.mp h
  obtain ⟨d, z, hd, h⟩ := andThen_eq_ok.mp h
  cases h
  have h1 := signedOperand_consumes params a s
  have h2 := signedOperand_consumes params b u
  rw [hu] at h1
  rw [hv] at h2
  have hrb : v.rb = s.rb := (Consumes.rb h2).trans (Consumes.rb h1)
  rw [writeOperand_params hd]
  simp only [writeAddress, hrb]

/-- What an instruction of format F3 that stores can come to. -/
theorem storing_cases {a b w : Operand} {f : Cell × Cell × Addr → State → Res Unit}
    (hf : ∀ o x y, (f o x).outcome = .next y →
      (∃ c, y = x.raise c) ∨ ∃ v, y = { x with mem := x.mem.write o.2.2.toNat v })
    (h : ((resolveF3 params a b w s).andThen f).outcome = .next t) :
    ∃ u, Consumes s u ∧ ((∃ c, t = u.raise c) ∨
      (writeAddress w s ≤ i64Max.toNat ∧ ∃ v, t = { u with mem := u.mem.write (writeAddress w s) v })) := by
  rcases resolve_then (resolveF3_consumes params a b w s) h with ⟨c, u, hu, e⟩ | ⟨o, u, ho, hu, h⟩
  · exact ⟨u, hu, .inl ⟨c, e⟩⟩
  · refine ⟨u, hu, (hf o u t h).imp_right fun hv => ?_⟩
    rw [← resolveF3_params ho]
    exact ⟨resolveF3_range ho, hv⟩

/-- What `storeExact` can come to. -/
theorem storeExact_cases {d : Addr} {v : Int} (h : (storeExact params d v s).outcome = .next t) :
    (∃ c, t = s.raise c) ∨ ∃ r, t = { s with mem := s.mem.write d.toNat r } := by
  rcases fit64_params_cases v s with ⟨-, e⟩ | ⟨-, e⟩
  · simp only [storeExact, e, andThen_ok, memWrite_unbounded (p := params) rfl, outcome_ok, Host.Outcome.next.injEq] at h
    exact .inr ⟨_, h.symm⟩
  · simp only [storeExact, e, andThen_raised, outcome_raised, Host.Outcome.next.injEq] at h
    exact .inl ⟨_, h.symm⟩

/-- What writing a relation's value can come to. -/
theorem memWrite_cases {d : Nat} {v : Cell} (h : (memWrite params d v s).outcome = .next t) :
    (∃ c, t = s.raise c) ∨ ∃ r, t = { s with mem := s.mem.write d r } := by
  simp only [memWrite_unbounded (p := params) rfl, outcome_ok, Host.Outcome.next.injEq] at h
  exact .inr ⟨_, h.symm⟩

/-- The state an instruction's effect makes of the state `u` in which its operands are resolved. -/
def Effect (i : Instr) (s u t : State) : Prop :=
  match i with
  | .add _ _ w => writeAddress w s ≤ i64Max.toNat ∧ ∃ v, t = { u with mem := u.mem.write (writeAddress w s) v }
  | .mul _ _ w => writeAddress w s ≤ i64Max.toNat ∧ ∃ v, t = { u with mem := u.mem.write (writeAddress w s) v }
  | .lt _ _ w => writeAddress w s ≤ i64Max.toNat ∧ ∃ v, t = { u with mem := u.mem.write (writeAddress w s) v }
  | .eq _ _ w => writeAddress w s ≤ i64Max.toNat ∧ ∃ v, t = { u with mem := u.mem.write (writeAddress w s) v }
  | .inp w => ∃ d : Addr, d.toNat = writeAddress w s ∧ d.toNat ≤ i64Max.toNat ∧ t = awaitInput d u
  | .out _ => ∃ v, t = { u with oq := u.oq ++ [v], state := .hasOutput }
  | .jt _ _ => ∃ b target, t = jumpIf b target u
  | .jf _ _ => ∃ b target, t = jumpIf b target u
  | .arb _ => ∃ r, t = { u with rb := r }
  | .hlt => t = { u with state := .done }

/-- Everything `exec` can come to: cells are consumed and operands resolved, and then either a fault is taken or the
instruction's one effect is applied. -/
theorem exec_cases {i : Instr} (h : exec i s = .next t) :
    ∃ u, Consumes s u ∧ ((∃ c, t = u.raise c) ∨ Effect i s u t) := by
  cases i with
  | add a b w => exact storing_cases (fun _ _ _ k => storeExact_cases k) h
  | mul a b w => exact storing_cases (fun _ _ _ k => storeExact_cases k) h
  | lt a b w => exact storing_cases (fun _ _ _ k => memWrite_cases k) h
  | eq a b w => exact storing_cases (fun _ _ _ k => memWrite_cases k) h
  | inp w =>
    rcases resolve_then (writeOperand_consumes params w s) h with ⟨c, u, hu, e⟩ | ⟨d, u, hd, hu, h⟩
    · exact ⟨u, hu, .inl ⟨c, e⟩⟩
    · cases h
      exact ⟨u, hu, .inr ⟨d, writeOperand_params hd, writeOperand_range hd, rfl⟩⟩
  | out a =>
    rcases resolve_then (signedOperand_consumes params a s) h with ⟨c, u, hu, e⟩ | ⟨v, u, -, hu, h⟩
    · exact ⟨u, hu, .inl ⟨c, e⟩⟩
    · rw [outEnqueue_unbounded rfl] at h
      cases h
      exact ⟨u, hu, .inr ⟨v, rfl⟩⟩
  | jt a q =>
    rcases resolve_then (resolveF2J_consumes params a q s) h with ⟨c, u, hu, e⟩ | ⟨o, u, -, hu, h⟩
    · exact ⟨u, hu, .inl ⟨c, e⟩⟩
    · cases h
      exact ⟨u, hu, .inr ⟨_, _, rfl⟩⟩
  | jf a q =>
    rcases resolve_then (resolveF2J_consumes params a q s) h with ⟨c, u, hu, e⟩ | ⟨o, u, -, hu, h⟩
    · exact ⟨u, hu, .inl ⟨c, e⟩⟩
    · cases h
      exact ⟨u, hu, .inr ⟨_, _, rfl⟩⟩
  | arb a =>
    rcases resolve_then (signedOperand_consumes params a s) h with ⟨c, u, hu, e⟩ | ⟨v, u, -, hu, h⟩
    · exact ⟨u, hu, .inl ⟨c, e⟩⟩
    · rcases fit64_params_cases (u.rb.toInt + v.toInt) u with ⟨-, e⟩ | ⟨-, e⟩
      · rw [e] at h
        cases h
        exact ⟨u, hu, .inr ⟨_, rfl⟩⟩
      · rw [e] at h
        cases h
        exact ⟨u, hu, .inl ⟨_, rfl⟩⟩
  | hlt =>
    cases h
    exact ⟨s, Consumes.refl s, .inr rfl⟩

/-! ## No procedure is stuck under the default parameters -/

/-- The procedure gives a value or raises. -/
def Res.Moves : Res α → Prop
  | .ok _ _ => True
  | .raised _ _ => True
  | .stuck _ => False

theorem moves_andThen {β : Type} {r : Res α} {f : α → State → Res β} (hr : r.Moves) (hf : ∀ v t, (f v t).Moves) :
    (r.andThen f).Moves := by
  cases r with
  | ok v t => exact hf v t
  | raised c t => trivial
  | stuck r => exact hr

theorem moves_outcome {r : Res Unit} (h : r.Moves) : ∃ t, r.outcome = .next t := by
  cases r with
  | ok v t => exact ⟨t, rfl⟩
  | raised c t => exact ⟨t.raise c, rfl⟩
  | stuck r => exact h.elim

theorem memRead_moves (a : Nat) (s : State) : (memRead params a s).Moves := by
  rw [memRead_unbounded rfl]
  trivial

theorem memWrite_moves (a : Nat) (v : Cell) (s : State) : (memWrite params a v s).Moves := by
  rw [memWrite_unbounded rfl]
  trivial

theorem fit64_moves (p : Params) (v : Int) (s : State) : (fit64 p v s).Moves := by
  simp only [fit64]
  split
  · trivial
  · split <;> trivial

theorem fitPc_moves (p : Params) (v : Nat) (s : State) : (fitPc p v s).Moves := by
  simp only [fitPc]
  split
  · trivial
  · split <;> trivial

theorem fetchWord_moves (s : State) : (fetchWord params s).Moves :=
  moves_andThen (memRead_moves _ s) fun _ t => moves_andThen (fitPc_moves _ _ t) fun _ _ => trivial

theorem checkPointer_moves (v : Cell) (s : State) : (checkPointer v s).Moves := by
  simp only [checkPointer]
  split <;> trivial

theorem consumeOperand_moves (o : Operand) (s : State) : (consumeOperand params o s).Moves := by
  refine moves_andThen ?_ fun _ t => moves_andThen (fetchWord_moves t) fun _ _ => trivial
  cases o.mode <;> trivial

theorem readAt_moves (v : Cell) (s : State) : (readAt params v s).Moves :=
  moves_andThen (checkPointer_moves v s) fun _ t => memRead_moves _ t

theorem signedOperand_moves (o : Operand) (s : State) : (signedOperand params o s).Moves :=
  moves_andThen (consumeOperand_moves o s) fun m t => by
    cases m with
    | immediate => trivial
    | position => exact readAt_moves _ t
    | relative => exact moves_andThen (fit64_moves _ _ t) fun v z => readAt_moves v z

theorem writeOperand_moves (o : Operand) (s : State) : (writeOperand params o s).Moves :=
  moves_andThen (consumeOperand_moves o s) fun m t => by
    cases m with
    | immediate => exact checkPointer_moves _ t
    | position => exact checkPointer_moves _ t
    | relative => exact moves_andThen (fit64_moves _ _ t) fun v z => checkPointer_moves v z

theorem resolveF3_moves (a b w : Operand) (s : State) : (resolveF3 params a b w s).Moves :=
  moves_andThen (signedOperand_moves a s) fun _ t =>
    moves_andThen (signedOperand_moves b t) fun _ u => moves_andThen (writeOperand_moves w u) fun _ _ => trivial

theorem resolveF2J_moves (a q : Operand) (s : State) : (resolveF2J params a q s).Moves :=
  moves_andThen (signedOperand_moves a s) fun _ t =>
    moves_andThen (moves_andThen (signedOperand_moves q t) fun v z => by
      simp only [checkTarget]
      split <;> trivial) fun _ _ => trivial

/-- Under the default parameters every instruction comes to a next state. -/
theorem exec_moves (i : Instr) (s : State) : ∃ t, exec i s = .next t := by
  have store : ∀ (d : Addr) (v : Int) (t : State), (storeExact params d v t).Moves := fun d v t =>
    moves_andThen (fit64_moves _ _ t) fun _ z => memWrite_moves _ _ z
  cases i with
  | add a b w => exact moves_outcome (moves_andThen (resolveF3_moves a b w s) fun _ t => store _ _ t)
  | mul a b w => exact moves_outcome (moves_andThen (resolveF3_moves a b w s) fun _ t => store _ _ t)
  | lt a b w => exact moves_outcome (moves_andThen (resolveF3_moves a b w s) fun _ t => memWrite_moves _ _ t)
  | eq a b w => exact moves_outcome (moves_andThen (resolveF3_moves a b w s) fun _ t => memWrite_moves _ _ t)
  | inp w => exact moves_outcome (moves_andThen (writeOperand_moves w s) fun _ _ => trivial)
  | out a =>
    exact moves_outcome (moves_andThen (signedOperand_moves a s) fun v t => by
      rw [outEnqueue_unbounded rfl]
      trivial)
  | jt a q => exact moves_outcome (moves_andThen (resolveF2J_moves a q s) fun _ _ => trivial)
  | jf a q => exact moves_outcome (moves_andThen (resolveF2J_moves a q s) fun _ _ => trivial)
  | arb a =>
    exact moves_outcome (moves_andThen (signedOperand_moves a s) fun _ t =>
      moves_andThen (fit64_moves _ _ t) fun _ _ => trivial)
  | hlt => exact ⟨_, rfl⟩

end Sys2Proof.Machine
end

