-- ==== Sys2Proof/Laws/Cycle.lean ====
section
/-!
SUPPORT. What a step can come to, by execution state.
-/

namespace Sys2Proof.Machine

open Sys2Proof

variable {s t : State}

/-- The instruction at `pc`: its word and the three cells after it. -/
def decodeAt (s : State) : Except DecodeError Instr :=
  decodeWords (s.mem.read s.pc.toNat) (s.mem.read (s.pc + 1).toNat) (s.mem.read (s.pc + 2).toNat)
    (s.mem.read (s.pc + 3).toNat)

/-- With the word consumed, the cells from `pc` on are the operand cells. -/
theorem decodeAtPc_afterCell (s : State) : decodeAtPc (s.mem.read s.pc.toNat) (afterCell s) = decodeAt s := by
  have h : ∀ k : Nat, s.pc + 1 + BitVec.ofNat 64 k = s.pc + BitVec.ofNat 64 (k + 1) := fun k => by
    rw [BitVec.add_assoc]
    congr 1
    apply BitVec.eq_of_toNat_eq
    simp [BitVec.toNat_add, BitVec.toNat_ofNat, Nat.add_comm]
  simp only [decodeAtPc, decodeAt, cellFromPc, afterCell_pc, afterCell_read, h]
  rfl

theorem step_done (h : s.state = .done) : step s = .next s := by
  simp only [step, microStep, microStepWith, h]

theorem step_faulted {c : Cause} (h : s.state = .faulted c) : step s = .next s := by
  simp only [step, microStep, microStepWith, h]

theorem step_hasOutput (h : s.state = .hasOutput) : step s = .next { s with state := .executing } := by
  simp only [step, microStep, microStepWith, h]

theorem step_waiting {d : Addr} (h : s.state = .needsInput d) (hq : s.iq = []) : step s = .next s := by
  simp only [step, microStep, microStepWith, h, deliverInput, inDequeue, hq]

theorem step_delivers {d : Addr} {v : Cell} {rest : List Cell} (h : s.state = .needsInput d) (hq : s.iq = v :: rest) :
    step s = .next { s with iq := rest, mem := s.mem.write d.toNat v, state := .executing } := by
  simp only [step, microStep, microStepWith, h, deliverInput, inDequeue, hq, memWrite_unbounded (p := params) rfl,
    andThen_ok, outcome_ok]

/-- A step in `Executing`: the fetch raises at the top of the address space; otherwise the cells at `pc` decode and their
instruction runs, or they do not and the fault is taken. -/
theorem step_executing (h : s.state = .executing) :
    (¬ PcRoom 1 s ∧ step s = .next ((stuckAtTop s).raise .pcOverflow)) ∨
    (PcRoom 1 s ∧ ∃ i, decodeAt s = .ok i ∧ step s = exec i (afterCell s)) ∨
    (PcRoom 1 s ∧ ∃ e, decodeAt s = .error e ∧ step s = .next ((afterCell s).raise (causeOfDecodeError e))) := by
  by_cases hr : PcRoom 1 s
  · refine .inr ?_
    have hd := decodeAtPc_afterCell s
    simp only [step, microStep, microStepWith, h, executeOne, fetchWord_room (p := params) rfl hr]
    cases e : decodeAt s with
    | ok i => exact .inl ⟨hr, i, rfl, by rw [hd, e]⟩
    | error x => exact .inr ⟨hr, x, rfl, by rw [hd, e]⟩
  · exact .inl ⟨hr, by simp only [step, microStep, microStepWith, h, executeOne, fetchWord_top (p := params) rfl rfl hr]⟩

/-- Consuming the instruction word is consuming. -/
theorem afterCell_consumes (s : State) : Consumes s (afterCell s) :=
  ⟨rfl, rfl, rfl, rfl, rfl, by simp only [afterCell_mem, len_touch]; omega, fun h => by
    have := toNat_le_u64Max s.pc
    simp only [afterCell_mem, len_touch]
    omega⟩

/-- A read grows the memory and nothing else. -/
theorem touch_consumes (s : State) (a : Addr) : Consumes s { s with mem := s.mem.touch a.toNat } :=
  ⟨rfl, rfl, rfl, rfl, rfl, by simp only [len_touch]; omega, fun h => by
    have := toNat_le_u64Max a
    simp only [len_touch]
    omega⟩

/-- Resolving a write operand does not depend on the cells consumed before it. -/
theorem writeAddress_consumes {u : State} (h : Consumes s u) (w : Operand) : writeAddress w u = writeAddress w s := by
  simp only [writeAddress, h.rb]

/-- An effect's addresses may be read in the state before the instruction word was consumed. -/
theorem effect_consumes {i : Instr} {s' u : State} (h : Consumes s s') (e : Effect i s' u t) : Effect i s u t := by
  cases i <;> simpa only [Effect, writeAddress_consumes h] using e

/-- Everything a step in `Executing` can come to. -/
theorem step_executing_cases (hs : s.state = .executing) (h : step s = .next t) :
    ∃ u, Consumes s u ∧ ((∃ c, t = u.raise c) ∨ ∃ i, decodeAt s = .ok i ∧ Effect i s u t) := by
  rcases step_executing hs with ⟨-, e⟩ | ⟨-, i, hi, e⟩ | ⟨-, x, -, e⟩
  · rw [e] at h
    cases h
    exact ⟨_, touch_consumes s s.pc, .inl ⟨_, rfl⟩⟩
  · rw [e] at h
    obtain ⟨u, hu, h⟩ := exec_cases h
    refine ⟨u, (afterCell_consumes s).trans hu, h.imp_right fun h => ⟨i, hi, effect_consumes (afterCell_consumes s) h⟩⟩
  · rw [e] at h
    cases h
    exact ⟨_, afterCell_consumes s, .inl ⟨_, rfl⟩⟩

end Sys2Proof.Machine
end

