-- ==== Sys2Proof/Laws/PerInstr.lean ====
section
/-!
SUPPORT. What the encoder gives for each instruction, one lemma per constructor.
-/

namespace Sys2Proof.Laws.EncodeShape

open Sys2Proof

/-- A well-formed instruction encodes to one cell more than its row's arity (R50); its word modulo 100 is the row's opcode
(R54, R64); and the word is not negative and below 100000, as five decimal digits give (R51, R52). -/
def Statement (i : Instr) : Prop :=
  i.wf = true → (encode i).length = i.opcode.arity + 1 ∧ i.word % opcodeRadix = i.opcode.code ∧
    i.word < 100000 ∧ (encode i).head? = some (cellOfInt i.word)

/-- The mode digits of a well-formed operand list, as a number. -/
theorem modeNumber_lt {l : List Operand} (h : l.all Operand.wf = true) : modeNumber l < modeRadix ^ l.length := by
  induction l with
  | nil => decide
  | cons o l ih =>
    simp only [List.all_cons, Bool.and_eq_true] at h
    obtain ⟨m, hm⟩ := ModeField.known_of_wf h.1
    have h1 := ih h.2
    have h2 : o.mode.digit < modeRadix := by rw [hm]; exact Mode.digit_lt m
    simp only [modeNumber, modeRadix, List.length_cons, Nat.pow_succ] at *
    omega

/-- The statement, from R4 `N_OPERANDS_MAX` alone. -/
theorem shape (i : Instr) : Statement i := fun h => by
  have h1 := modeNumber_lt h
  have h2 : modeRadix ^ i.operands.length ≤ modeRadix ^ maxOperands :=
    Nat.pow_le_pow_right (by decide) (by simpa using Opcode.arity_le i.opcode)
  have h3 := Opcode.code_lt i.opcode
  simp only [modeRadix, opcodeRadix, maxOperands] at *
  refine ⟨by simp [encode], ?_, ?_, ?_⟩
  · simp only [Instr.word, opcodeRadix]
    omega
  · simp only [Instr.word, opcodeRadix]
    omega
  · simp only [encode, List.head?_cons, cellOfInt, BitVec.ofInt_natCast]

theorem add (a b w : Operand) : Statement (.add a b w) := shape _
theorem mul (a b w : Operand) : Statement (.mul a b w) := shape _
theorem inp (w : Operand) : Statement (.inp w) := shape _
theorem out (a : Operand) : Statement (.out a) := shape _
theorem jt (a p : Operand) : Statement (.jt a p) := shape _
theorem jf (a p : Operand) : Statement (.jf a p) := shape _
theorem lt (a b w : Operand) : Statement (.lt a b w) := shape _
theorem eq (a b w : Operand) : Statement (.eq a b w) := shape _
theorem arb (a : Operand) : Statement (.arb a) := shape _
theorem hlt : Statement .hlt := shape _

end Sys2Proof.Laws.EncodeShape
end

