-- ==== Sys2Proof/Laws/Queues.lean ====
section
/-!
SUPPORT. Fetching, resolving and computing look at neither queue: run from a state with other queues, they give the same,
with those other queues kept (`Blind`). So a step in `Executing` is the same step whatever the queues hold, and appends
the same values, where there is room for them (`stepUnder_uniform`).
-/

namespace Sys2Proof.Machine

open Sys2Proof

variable {α β : Type} {s t : State}

/-- The state with other queues. -/
def State.withQueues (s : State) (iq oq : List Cell) : State := { s with iq := iq, oq := oq }

@[simp] theorem withQueues_pc (iq oq : List Cell) : (s.withQueues iq oq).pc = s.pc := rfl
@[simp] theorem withQueues_rb (iq oq : List Cell) : (s.withQueues iq oq).rb = s.rb := rfl
@[simp] theorem withQueues_mem (iq oq : List Cell) : (s.withQueues iq oq).mem = s.mem := rfl
@[simp] theorem withQueues_state (iq oq : List Cell) : (s.withQueues iq oq).state = s.state := rfl
@[simp] theorem withQueues_iq (iq oq : List Cell) : (s.withQueues iq oq).iq = iq := rfl
@[simp] theorem withQueues_oq (iq oq : List Cell) : (s.withQueues iq oq).oq = oq := rfl
@[simp] theorem withQueues_self : s.withQueues s.iq s.oq = s := rfl

/-- The same result, with other queues in the state it left. -/
def Res.withQueues (iq oq : List Cell) : Res α → Res α
  | .ok v s => .ok v (s.withQueues iq oq)
  | .raised c s => .raised c (s.withQueues iq oq)
  | .stuck r => .stuck r

/-- The procedure looks at neither queue and changes neither. -/
def Blind (f : State → Res α) : Prop := ∀ iq oq s, f (s.withQueues iq oq) = (f s).withQueues iq oq

theorem blind_andThen {f : State → Res α} {g : α → State → Res β} (hf : Blind f) (hg : ∀ v, Blind (g v)) :
    Blind fun s => (f s).andThen g := fun iq oq s => by
  simp only [hf iq oq s]
  cases f s with
  | ok v t => exact hg v iq oq t
  | raised c t => rfl
  | stuck r => rfl

theorem blind_ok (v : α) : Blind fun s => Res.ok v s := fun _ _ _ => rfl

theorem blind_memRead (p : Params) (a : Nat) : Blind (memRead p a) := fun _ _ _ => by
  simp only [memRead]
  split <;> rfl

theorem blind_memWrite (p : Params) (a : Nat) (v : Cell) : Blind (memWrite p a v) := fun _ _ _ => by
  simp only [memWrite]
  split <;> rfl

theorem blind_fit64 (p : Params) (v : Int) : Blind (fit64 p v) := fun _ _ _ => by
  simp only [fit64]
  split
  · rfl
  · split <;> rfl

theorem blind_fitPc (p : Params) (v : Nat) : Blind (fitPc p v) := fun _ _ _ => by
  simp only [fitPc]
  split
  · rfl
  · split <;> rfl

/-- The part of a fetch after its read. -/
theorem blind_advance (p : Params) (n : Nat) (v : Cell) :
    Blind fun s => (fitPc p n s).andThen fun pc s => .ok v { s with pc := pc } :=
  blind_andThen (blind_fitPc p n) fun _ _ _ _ => rfl

theorem blind_fetchWord (p : Params) : Blind (fetchWord p) := fun iq oq s => by
  simp only [fetchWord, withQueues_pc, blind_memRead p s.pc.toNat iq oq s]
  simp only [memRead]
  split
  · exact blind_advance p _ _ iq oq _
  · rfl

theorem blind_checkPointer (v : Cell) : Blind (checkPointer v) := fun _ _ _ => by
  simp only [checkPointer]
  split <;> rfl

theorem blind_checkTarget (v : Cell) : Blind (checkTarget v) := fun _ _ _ => by
  simp only [checkTarget]
  split <;> rfl

theorem blind_readAt (p : Params) (v : Cell) : Blind (readAt p v) :=
  blind_andThen (blind_checkPointer v) fun _ => blind_memRead p _

theorem blind_relativeSum (p : Params) (raw : Cell) : Blind (relativeSum p raw) := fun iq oq s =>
  blind_fit64 p (raw.toInt + s.rb.toInt) iq oq s

theorem blind_readByMode (p : Params) (m : Mode) (raw : Cell) : Blind (readByMode p m raw) := by
  cases m with
  | immediate => exact blind_ok _
  | position => exact blind_readAt p raw
  | relative => exact blind_andThen (blind_relativeSum p raw) fun v => blind_readAt p v

theorem blind_addressByMode (p : Params) (m : Mode) (raw : Cell) : Blind (addressByMode p m raw) := by
  cases m with
  | immediate => exact blind_checkPointer raw
  | position => exact blind_checkPointer raw
  | relative => exact blind_andThen (blind_relativeSum p raw) fun v => blind_checkPointer v

theorem blind_nextMode (f : ModeField) : Blind (nextMode f) := fun _ _ _ => by cases f <;> rfl

theorem blind_consumeOperand (p : Params) (o : Operand) : Blind (consumeOperand p o) :=
  blind_andThen (blind_nextMode _) fun m => blind_andThen (blind_fetchWord p) fun _ => blind_ok m

theorem blind_signedOperand (p : Params) (o : Operand) : Blind (signedOperand p o) :=
  blind_andThen (blind_consumeOperand p o) fun m => blind_readByMode p m _

theorem blind_unsignedOperand (p : Params) (o : Operand) : Blind (unsignedOperand p o) :=
  blind_andThen (blind_signedOperand p o) fun v => blind_checkTarget v

theorem blind_writeOperand (p : Params) (o : Operand) : Blind (writeOperand p o) :=
  blind_andThen (blind_consumeOperand p o) fun m => blind_addressByMode p m _

theorem blind_resolveF3 (p : Params) (a b w : Operand) : Blind (resolveF3 p a b w) :=
  blind_andThen (blind_signedOperand p a) fun _ =>
    blind_andThen (blind_signedOperand p b) fun _ => blind_andThen (blind_writeOperand p w) fun _ => blind_ok _

theorem blind_resolveF2J (p : Params) (a q : Operand) : Blind (resolveF2J p a q) :=
  blind_andThen (blind_signedOperand p a) fun _ => blind_andThen (blind_unsignedOperand p q) fun _ => blind_ok _

/-! ## Instructions and steps -/

/-- From `s` to `t`, the step `f` leaves `IQ` alone and appends at most one value to `OQ`, which had room for it, and it does
the same whatever the queues hold, where there is room for what it appends. -/
def Uniform (p : Params) (f : State → Host.Outcome State Fault Refusal) (s t : State) : Prop :=
  t.iq = s.iq ∧ ∃ e : List Cell, (e = [] ∨ ∃ v, e = [v]) ∧ t.oq = s.oq ++ e ∧
    (e ≠ [] → hasRoom p.oqDepth s.oq = true) ∧
    ∀ iq oq, (e ≠ [] → hasRoom p.oqDepth oq = true) → f (s.withQueues iq oq) = .next (t.withQueues iq (oq ++ e))

/-- A step that leaves both queues alone and looks at neither. -/
theorem uniform_of_quiet {p : Params} {f : State → Host.Outcome State Fault Refusal} (hi : t.iq = s.iq) (ho : t.oq = s.oq)
    (h : ∀ iq oq, f (s.withQueues iq oq) = .next (t.withQueues iq oq)) : Uniform p f s t :=
  ⟨hi, [], .inl rfl, by simpa using ho, fun h => absurd rfl h, fun iq oq _ => by simpa using h iq oq⟩

/-- A blind instruction appends nothing. -/
theorem uniform_of_blind {p : Params} {f : State → Res Unit} (hf : Blind f) (h : (f s).outcome = .next t) :
    Uniform p (fun s => (f s).outcome) s t := by
  have key : ∀ iq oq, (f (s.withQueues iq oq)).outcome = .next (t.withQueues iq oq) := fun iq oq => by
    rw [hf iq oq s]
    cases e : f s with
    | ok v u => rw [e] at h; cases h; rfl
    | raised c u => rw [e] at h; cases h; rfl
    | stuck r => rw [e] at h; cases h
  have e : t = t.withQueues s.iq s.oq := by
    have := key s.iq s.oq
    rw [withQueues_self, h] at this
    simpa using this
  exact uniform_of_quiet (by rw [e]; rfl) (by rw [e]; rfl) key

/-- OUT resolves its operand blindly and then appends its value. -/
theorem out_uniform {p : Params} {a : Operand} (h : outUnder p a s = .next t) : Uniform p (outUnder p a) s t := by
  have hb := blind_signedOperand p a
  have hc := signedOperand_consumes p a s
  simp only [outUnder, resolveF1R] at h
  cases hs : signedOperand p a s with
  | ok v u =>
    rw [hs] at h hc
    replace hc : Consumes s u := hc
    simp only [andThen_ok, outEnqueue] at h
    split at h
    · next hroom =>
      cases h
      refine ⟨hc.iq, [v], .inr ⟨v, rfl⟩, by simpa using hc.oq, fun _ => by rw [← hc.oq]; exact hroom,
        fun iq oq hr => ?_⟩
      simp only [outUnder, resolveF1R, hb iq oq s, hs, Res.withQueues, andThen_ok, outEnqueue, withQueues_oq,
        hr (by simp), if_true]
      rfl
    · cases h
  | raised c u =>
    rw [hs] at h hc
    replace hc : Consumes s u := hc
    cases h
    refine uniform_of_quiet hc.iq hc.oq fun iq oq => ?_
    simp only [outUnder, resolveF1R, hb iq oq s, hs]
    rfl
  | stuck r => rw [hs] at h; cases h

/-- Every instruction is uniform in the queues. -/
theorem execUnder_uniform {p : Params} {i : Instr} (h : execUnder p i s = .next t) : Uniform p (execUnder p i) s t := by
  have store : ∀ (d : Addr) (v : Int), Blind (storeExact p d v) := fun d v =>
    blind_andThen (blind_fit64 _ _) fun _ => blind_memWrite _ _ _
  cases i with
  | add a b w => exact uniform_of_blind (blind_andThen (blind_resolveF3 _ a b w) fun _ => store _ _) h
  | mul a b w => exact uniform_of_blind (blind_andThen (blind_resolveF3 _ a b w) fun _ => store _ _) h
  | lt a b w => exact uniform_of_blind (blind_andThen (blind_resolveF3 _ a b w) fun _ => blind_memWrite _ _ _) h
  | eq a b w => exact uniform_of_blind (blind_andThen (blind_resolveF3 _ a b w) fun _ => blind_memWrite _ _ _) h
  | inp w => exact uniform_of_blind (blind_andThen (blind_writeOperand _ w) fun _ _ _ _ => rfl) h
  | out a => exact out_uniform h
  | jt a q =>
    exact uniform_of_blind (blind_andThen (blind_resolveF2J _ a q) fun _ _ _ _ => by simp only [jumpIf]; split <;> rfl) h
  | jf a q =>
    exact uniform_of_blind (blind_andThen (blind_resolveF2J _ a q) fun _ _ _ _ => by simp only [jumpIf]; split <;> rfl) h
  | arb a =>
    exact uniform_of_blind (blind_andThen (blind_signedOperand _ a) fun v iq oq s =>
      blind_andThen (blind_fit64 p (s.rb.toInt + v.toInt)) (fun _ _ _ _ => rfl) iq oq s) h
  | hlt =>
    cases h
    exact uniform_of_quiet rfl rfl fun _ _ => rfl

/-- A step in `Executing` does not look at the queues but for the room an OUT needs: it leaves `IQ` alone and appends the
same values to any `OQ`. -/
theorem stepUnder_uniform {p : Params} (hs : s.state = .executing) (h : stepUnder p s = .next t) :
    Uniform p (stepUnder p) s t := by
  have hx : ∀ z : State, z.state = .executing → stepUnder p z = executeOne p (execUnder p) z := fun z hz => by
    simp only [stepUnder, microStepWith, hz]
  have hb := blind_fetchWord p
  have hc := fetchWord_consumes p s
  rw [hx s hs] at h
  have hq : ∀ iq oq, stepUnder p (s.withQueues iq oq) = executeOne p (execUnder p) (s.withQueues iq oq) := fun _ _ => hx _ hs
  simp only [executeOne] at h hq
  cases hf : fetchWord p s with
  | ok word u =>
    rw [hf] at h hc
    replace hc : Consumes s u := hc
    have hd : ∀ iq oq, decodeAtPc word (u.withQueues iq oq) = decodeAtPc word u := fun _ _ => rfl
    simp only [hb _ _ s, hf, Res.withQueues, hd] at hq
    cases hi : decodeAtPc word u with
    | ok i =>
      simp only [hi] at h hq
      obtain ⟨h1, e, he, h2, hr, h3⟩ := execUnder_uniform h
      exact ⟨h1.trans hc.iq, e, he, by rw [h2, hc.oq], fun h => by rw [← hc.oq]; exact hr h, fun iq oq hr => (hq iq oq).trans (h3 iq oq hr)⟩
    | error x =>
      simp only [hi] at h hq
      cases h
      exact uniform_of_quiet hc.iq hc.oq fun iq oq => hq iq oq
  | raised c u =>
    rw [hf] at h hc
    replace hc : Consumes s u := hc
    simp only [hb _ _ s, hf, Res.withQueues] at hq
    cases h
    exact uniform_of_quiet hc.iq hc.oq fun iq oq => hq iq oq
  | stuck r => rw [hf] at h; cases h

end Sys2Proof.Machine
end

