-- ==== Sys2Proof/Tests/Slice0.lean ====
section
/-!
SUPPORT. Tests. Expected results come from `95_test_vectors.md` (its row is named) or are computed by hand from the rule
named. After them, for every obligation with hypotheses, a concrete state and operands that meet all of them.
-/

namespace Sys2Proof.Tests

open Sys2Proof Sys2Proof.Machine

/-! ## Helpers -/

/-- The next state, if there is one. -/
def nextOf : Host.Outcome State Fault Refusal → Option State
  | .next s => some s
  | .fault _ => none
  | .refused _ => none

/-- The instruction, if the cells decode. -/
def instrOf : Except DecodeError (Instr × List Cell) → Option (Instr × List Cell)
  | .ok x => some x
  | .error _ => none

/-- The error, if the cells do not decode. -/
def errorOf : Except DecodeError (Instr × List Cell) → Option DecodeError
  | .ok _ => none
  | .error e => some e

/-- A freshly loaded machine. -/
abbrev boot (rom : List Cell) : State := State.load rom

/-- A read of one cell after one step. -/
def cellAfter (s : State) (a : Nat) : Option Cell := (nextOf (step s)).map fun t => t.mem.read a

def pos (v : Cell) : Operand := ⟨.known .position, v⟩
def imm (v : Cell) : Operand := ⟨.known .immediate, v⟩
def rel (v : Cell) : Operand := ⟨.known .relative, v⟩
def bad (d : Nat) (v : Cell) : Operand := ⟨.unrecognized d, v⟩

/-! ## WellFormed refuses an unrecognized mode digit in every operand position -/

theorem test_wf_add : (Instr.add (pos 1) (imm 2) (rel 3)).wf = true := by decide
theorem test_wf_immediate_write : (Instr.add (pos 1) (imm 2) (imm 3)).wf = true := by decide
theorem test_ill_add : (Instr.add (bad 3 1) (pos 2) (pos 3)).wf = false ∧ (Instr.add (pos 1) (bad 3 2) (pos 3)).wf = false ∧
    (Instr.add (pos 1) (pos 2) (bad 9 3)).wf = false := by decide
theorem test_ill_mul : (Instr.mul (bad 3 1) (pos 2) (pos 3)).wf = false ∧ (Instr.mul (pos 1) (pos 2) (bad 3 3)).wf = false := by
  decide
theorem test_ill_lt : (Instr.lt (bad 3 1) (pos 2) (pos 3)).wf = false ∧ (Instr.lt (pos 1) (pos 2) (bad 3 3)).wf = false := by
  decide
theorem test_ill_eq : (Instr.eq (bad 3 1) (pos 2) (pos 3)).wf = false ∧ (Instr.eq (pos 1) (pos 2) (bad 3 3)).wf = false := by
  decide
theorem test_ill_jumps : (Instr.jt (bad 4 1) (pos 2)).wf = false ∧ (Instr.jt (pos 1) (bad 4 2)).wf = false ∧
    (Instr.jf (bad 4 1) (pos 2)).wf = false ∧ (Instr.jf (pos 1) (bad 4 2)).wf = false := by decide
theorem test_ill_one_operand : (Instr.inp (bad 5 1)).wf = false ∧ (Instr.out (bad 6 1)).wf = false ∧
    (Instr.arb (bad 7 1)).wf = false := by decide

/-! ## Decoding, one word for each row, written out from the digits of R51 -/

theorem test_decode_add : instrOf (decode [21001, 5, 3, -1]) = some (.add (pos 5) (imm 3) (rel (-1)), []) := by decide
theorem test_decode_mul : instrOf (decode [1002, 4, 3, 4]) = some (.mul (pos 4) (imm 3) (pos 4), []) := by decide
theorem test_decode_in : instrOf (decode [203, -2, 99]) = some (.inp (rel (-2)), [99]) := by decide
theorem test_decode_out : instrOf (decode [31104, 5, 99]) = some (.out (imm 5), [99]) := by decide
theorem test_decode_jt : instrOf (decode [2105, 7, 4]) = some (.jt (imm 7) (rel 4), []) := by decide
theorem test_decode_jf : instrOf (decode [1006, 101, 0]) = some (.jf (pos 101) (imm 0), []) := by decide
theorem test_decode_lt : instrOf (decode [7, 100, 101, 102]) = some (.lt (pos 100) (pos 101) (pos 102), []) := by decide
theorem test_decode_eq : instrOf (decode [1008, 100, 16, 101]) = some (.eq (pos 100) (imm 16) (pos 101), []) := by decide
theorem test_decode_arb : instrOf (decode [209, 1]) = some (.arb (rel 1), []) := by decide
theorem test_decode_hlt : instrOf (decode [399, 7]) = some (.hlt, [7]) := by decide
/-- E13: the digits of `I64_MAX` above its opcode 07 are 8, 5 and 7. -/
theorem test_decode_max : instrOf (decode [9223372036854775807, 1, 2, 3]) = some (.lt (bad 8 1) (bad 5 2) (bad 7 3), []) := by
  decide
theorem test_decode_rejects : errorOf (decode [0]) = some (.unrecognizedOpcode 0) ∧
    errorOf (decode [310, 1, 1]) = some (.unrecognizedOpcode 10) ∧ errorOf (decode [98]) = some (.unrecognizedOpcode 98) ∧
    errorOf (decode [-1]) = some .negativeWord ∧ errorOf (decode [1, 2, 3]) = some .truncated ∧
    errorOf (decode []) = some .truncated := by decide
theorem test_encode_add : encode (.add (pos 5) (imm 3) (rel (-1))) = [21001, 5, 3, -1] := by decide
theorem test_encode_hlt : encode .hlt = [99] := by decide

/-! ## The table's numbering -/

theorem test_table_hlt : decodeTableWord 64 99 = some .hlt := by decide
/-- ADD [5], #3, rb[-1], its four cells one above the other. -/
theorem test_table_add : decodeTableWord 256 (21001 + 5 * 2 ^ 64 + 3 * 2 ^ 128 + (2 ^ 64 - 1) * 2 ^ 192) =
    some (.add (pos 5) (imm 3) (rel (-1))) := by decide
theorem test_table_short : decodeTableWord 64 (2 + 7 * 2 ^ 64) = some (.mul (pos 0) (pos 0) (pos 0)) := by decide
theorem test_fetchWord_runs : nextOf (step (State.reset.withFetchWord 128 (104 + 7 * 2 ^ 64))) =
    some { State.load [104, 7, 0, 0] with pc := 2, state := .hasOutput, oq := [7] } := by decide

/-! ## One step of each instruction -/

/-- P4, second row. -/
theorem test_mul_p4 : cellAfter (boot [2, 3, 0, 3, 99]) 3 = some 6 := by decide
/-- P4, first row: source and destination are one cell. -/
theorem test_add_same_cell : cellAfter (boot [1, 0, 0, 0, 99]) 0 = some 2 := by decide
/-- A2. -/
theorem test_add_overflow : (nextOf (step (boot [1101, 9223372036854775807, 1, 5, 99]))).map (fun t => (t.pc, t.state, t.mem.len)) =
    some (4, .faulted .arithmeticOverflow, 5) := by decide
/-- A4. -/
theorem test_mul_overflow : (nextOf (step (boot [1102, 3037000500, 3037000500, 5, 99]))).map (fun t => (t.pc, t.state)) =
    some (4, .faulted .arithmeticOverflow) := by decide
/-- A5: the exact product less 2^64. -/
theorem test_mul_wraps : (nextOf (stepUnder { Params.defaults with overflow := .wrap } (boot [1102, 3037000500, 3037000500, 5]))).map
    (fun t => (t.mem.read 5).toInt) = some (-9223372036709301616) := by decide
/-- I2. -/
theorem test_in_waits : (nextOf (step (boot [3, 5, 99]))).map (fun t => (t.pc, t.state, t.mem.len)) = some (2, .needsInput 5, 3) := by
  decide
/-- P7: the second half of IN. -/
theorem test_in_delivers : nextOf (step { boot [3, 5, 99] with pc := 2, state := .needsInput 5, iq := [-7] }) =
    some { State.load [3, 5, 99, 0, 0, -7] with pc := 2 } := by decide
/-- I6. -/
theorem test_out_reads_zero : (nextOf (step (boot [4, 10, 99]))).map (fun t => (t.oq, t.state, t.mem.len)) =
    some ([0], .hasOutput, 11) := by decide
/-- J6: a negative value is true. -/
theorem test_jt_negative : (nextOf (step (boot [5, 5, 6, 99, 99, -3, 4]))).map (fun t => t.pc) = some 4 := by decide
/-- J2. -/
theorem test_jt_not_taken : (nextOf (step (boot [1105, 0, 4, 99]))).map (fun t => t.pc) = some 3 := by decide
/-- J4 and J5. -/
theorem test_jf : (nextOf (step (boot [1106, 0, 4, 99]))).map (fun t => t.pc) = some 4 ∧
    (nextOf (step (boot [1106, 5, 4, 99]))).map (fun t => t.pc) = some 3 := by decide
/-- J3: not taken, yet it faults. -/
theorem test_jt_bad_target : (nextOf (step (boot [1105, 0, -1, 99]))).map (fun t => (t.pc, t.state)) =
    some (3, .faulted .negativeJumpTarget) := by decide
/-- C5 and C3. -/
theorem test_lt : cellAfter (boot [1107, -9223372036854775808, 9223372036854775807, 5, 99, -1]) 5 = some 1 ∧
    cellAfter (boot [1107, 3, 3, 5, 99, -1]) 5 = some 0 := by decide
/-- C6 and C7. -/
theorem test_eq : cellAfter (boot [1108, 4, 4, 5, 99, -1]) 5 = some 1 ∧ cellAfter (boot [1108, 4, 5, 5, 99, -1]) 5 = some 0 := by
  decide
/-- R2v: the operand is read with the old base. -/
theorem test_arb_old_base : (nextOf (step { boot [109, 3, 209, 1, 99] with pc := 2, rb := 3 })).map (fun t => t.rb) = some 102 := by
  decide
/-- H1, E3r. -/
theorem test_hlt : nextOf (step (boot [399])) = some { boot [399] with pc := 1, state := .done } := by decide
/-- E8e: the fetch from the empty memory grows it. -/
theorem test_empty_rom : nextOf (step State.reset) =
    some { State.reset with pc := 1, mem := ⟨[], 1⟩, state := .faulted .unrecognizedOpcode } := by decide
/-- F6 and F7: a bad address of operand 1 before a bad digit of operand 2; a bad digit before its own raw word. -/
theorem test_fault_order : (nextOf (step (boot [3001, -1, 0, 0, 99]))).map (fun t => (t.pc, t.state)) =
      some (2, .faulted .negativePointer) ∧
    (nextOf (step (boot [301, -1, 0, 0, 99]))).map (fun t => (t.pc, t.state)) =
      some (1, .faulted .unrecognizedAddressingMode) := by decide
/-- F9 and F10. -/
theorem test_relative_sum : (nextOf (step { boot [204, 1, 99] with rb := 9223372036854775807 })).map (fun t => (t.pc, t.state)) =
      some (2, .faulted .arithmeticOverflow) ∧
    (nextOf (stepUnder { Params.defaults with overflow := .wrap } { boot [204, 1, 99] with rb := 9223372036854775807 })).map
      (fun t => (t.pc, t.state)) = some (2, .faulted .negativePointer) := by decide
/-- R13: a fetch at `U64_MAX`. -/
theorem test_pc_overflow : (nextOf (step { State.reset with pc := 18446744073709551615 })).map (fun t => (t.pc, t.state, t.mem.len)) =
    some (18446744073709551615, .faulted .pcOverflow, 18446744073709551616) := by decide
/-- P1: growth by a write and by a read. -/
theorem test_memory_p1 : (({ cells := [], len := 3 } : Memory).write 10 7) = { cells := [(10, 7)], len := 11 } ∧
    (({ cells := [(10, 7)], len := 11 } : Memory).touch 500).len = 501 := by decide
/-- R34: writing 0 over a listed cell. -/
theorem test_memory_zero : (({ cells := [(3, 5), (10, 7)], len := 11 } : Memory).write 3 0) = { cells := [(10, 7)], len := 11 } := by
  decide
/-- I1: one Step, no report at the IN. -/
theorem test_step_input : stepTransaction step 4 { boot [3, 5, 99] with iq := [42] } =
    .reported .done { State.load [3, 5, 99, 0, 0, 42] with pc := 3, state := .done } := by decide
/-- I8. -/
theorem test_run_needs_input : runTransaction step 4 2 (boot [3, 0, 99]) =
    .error .runNeedsInput { boot [3, 0, 99] with pc := 2, state := .needsInput 0 } := by decide
/-- Program E: the output stays queued, then the zero-filled fetch faults. -/
theorem test_run_program_e : runTransaction step 3 3 (boot [104, 7]) = .error (.fault .unrecognizedOpcode)
    { boot [104, 7] with pc := 3, mem := ⟨[(0, 104), (1, 7)], 3⟩, state := .faulted .unrecognizedOpcode, oq := [7] } := by decide
/-- The interactive protocol of R159 on a program that doubles its input. -/
theorem test_interact : (interact step params 6 3 [21] (boot [3, 20, 102, 2, 20, 20, 4, 20, 99])).map (fun x => (x.1, x.2.1)) =
    some ([42], .done) := by decide
/-- R166: the second core's phase, and the zero behind the first core's. -/
theorem test_ring_queues : (System.ring [99] [4, 3, 2]).queues = [[4, 0], [3], [2]] ∧
    (System.ring [99] [4, 3, 2]).nodes.map (fun n => (n.inQ, n.outQ)) = [(0, 1), (1, 2), (2, 0)] := by decide

/-! ## Witnesses: the hypotheses of each obligation can be met -/

theorem witness_DecodeUndoesEncode : (Instr.add (rel (-1)) (imm 9223372036854775807) (pos 0)).wf = true := by decide

theorem witness_EncodeUndoesDecode : decode [1100001, 5, 6, 7, 99] = .ok (.add (pos 5) (pos 6) (pos 7), [99]) := by rfl

theorem witness_DecodeReadsDecimalDigits : (-1 : Cell).toInt < 0 ∧
    (0 ≤ (9223372036854775807 : Cell).toInt ∧ (Opcode.lt.code : Int) = (9223372036854775807 : Cell).toInt % 100) ∧
    (0 ≤ (99 : Cell).toInt ∧ (Opcode.hlt.code : Int) = (99 : Cell).toInt % 100) ∧
    (0 ≤ (98 : Cell).toInt ∧ ∀ o ∈ Opcode.all, (o.code : Int) ≠ (98 : Cell).toInt % 100) ∧
    (0 ≤ (0 : Cell).toInt ∧ ∀ o ∈ Opcode.all, (o.code : Int) ≠ (0 : Cell).toInt % 100) := by decide

theorem witness_UnconsumedDigitsAreIgnored : selectOpcode 104 = .ok .out ∧ 0 ≤ (31104 : Cell).toInt ∧
    (31104 : Cell).toInt % 10 ^ (2 + Opcode.out.arity) = (104 : Cell).toInt % 10 ^ (2 + Opcode.out.arity) :=
  ⟨rfl, by decide, by decide⟩

theorem witness_WriteThenReadReturnsValue :
    (∃ t, memWrite params (18446744073709551615 : Addr).toNat 7 State.reset = .ok () t) ∧
    (([1, 2] : List Cell).length ≤ (2 : Addr).toNat ∧ ∀ w ∈ ([(0, 5), (3, 5)] : List (Addr × Cell)), w.1 ≠ 2) :=
  ⟨⟨_, if_pos rfl⟩, by simp⟩

theorem witness_WriteChangesOneCell :
    ((boot [1, 2]).mem.wf = true ∧ (boot [1, 2]).mem.len ≤ 2 ∧ (2 : Nat) ≠ (5 : Addr).toNat) ∧
    writeOperand params (pos 9223372036854775807) (boot [1, 2]) =
      .ok 9223372036854775807 { boot [1, 2] with pc := 1 } := ⟨by decide, rfl⟩

theorem witness_ReadOnlyGrowsMemory : (boot [1, 2]).mem.wf = true ∧ (boot [1, 2]).mem.len ≤ (2 : Addr).toNat := by decide

/-- A fetch with room, after further growth and a store elsewhere; and one at `U64_MAX`, in both modes. -/
theorem witness_StoreIsSeenByFetch :
    (∃ t, memWrite params (18446744073709551614 : Addr).toNat 99 State.reset = .ok () t ∧
      ∃ u : State, u = { t with pc := 18446744073709551614, mem := (t.mem.write 3 7).touch 18446744073709551615 } ∧
        u.mem.read 18446744073709551614 = t.mem.read 18446744073709551614 ∧ u.mem ≠ t.mem ∧ PcRoom 1 u) ∧
    ∀ m : OverflowMode, ∃ t, memWrite { Params.defaults with overflow := m } (18446744073709551615 : Addr).toNat 99 State.reset =
      .ok () t ∧ ¬ PcRoom 1 { t with pc := 18446744073709551615 } :=
  ⟨⟨_, rfl, _, rfl, by decide, by decide, by decide⟩, fun _ => ⟨_, rfl, by decide⟩⟩

theorem witness_StepKeepsInv : (boot [3, 5]).Inv ∧ ∃ t, step (boot [3, 5]) = .next t := ⟨⟨rfl, trivial⟩, _, rfl⟩

/-- In `NeedsInput`, with `DEST` at the top of its range. -/
theorem witness_StepKeepsInv_waiting :
    ({ boot [3, 5] with state := .needsInput 9223372036854775807, iq := [1] } : State).Inv ∧
    ∃ t, step { boot [3, 5] with state := .needsInput 9223372036854775807, iq := [1] } = .next t :=
  ⟨⟨rfl, (by decide : (9223372036854775807 : Addr).toNat ≤ i64Max.toNat)⟩, _, rfl⟩

theorem witness_ResetMeetsInv : ([1, 0, 0, 0, 99] : List Cell).length ≤ u64Max + 1 := by decide

theorem witness_LoadLeavesResetValues : (([1, 0, 99] : List Cell)[2]? = some 99 ∧ ([1, 0, 99] : List Cell).length ≤ 3) ∧
    ((System.single State.reset).nodes[0]?.map Node.inStep) = some false ∧ (System.single State.reset).Attached ∧
    (System.single State.reset).wired 0 = false ∧ (System.single State.reset).wired 1 = false ∧
    ((System.ring [99] [4]).nodes[0]?.map Node.inStep) = some false ∧ (System.ring [99] [4]).Attached ∧
    (System.ring [99] [4]).wired 0 = true := by
  simp only [System.Attached]
  decide

theorem witness_StepRunsDecodedInstr : (boot [1002, 4, 3, 4]).state = .executing ∧ PcRoom 1 (boot [1002, 4, 3, 4]) ∧
    decodeWords 1002 4 3 4 = .ok (.mul (pos 4) (imm 3) (pos 4)) := ⟨rfl, by decide, rfl⟩

theorem witness_UnrecognizedOpcodeFaults : (boot [100]).state = .executing ∧ PcRoom 1 (boot [100]) ∧
    0 ≤ ((boot [100]).mem.read (boot [100]).pc.toNat).toInt ∧ ((boot [100]).mem.read (boot [100]).pc.toNat).toInt % 100 = 0 := by
  decide

theorem witness_UnrecognizedOpcodeFaults_bounds :
    (10 ≤ ((boot [10]).mem.read (boot [10]).pc.toNat).toInt % 100 ∧ ((boot [10]).mem.read (boot [10]).pc.toNat).toInt % 100 ≤ 98) ∧
    (10 ≤ ((boot [98]).mem.read (boot [98]).pc.toNat).toInt % 100 ∧ ((boot [98]).mem.read (boot [98]).pc.toNat).toInt % 100 ≤ 98) := by
  decide

theorem witness_NegativeWordFaults : ((boot [-1]).mem.read (boot [-1]).pc.toNat).toInt < 0 ∧
    ((boot [-9223372036854775808]).mem.read (boot []).pc.toNat).toInt < 0 ∧ (boot [0]).mem.read (boot [0]).pc.toNat = 0 ∧
    (boot [-1]).state = .executing ∧ PcRoom 1 (boot [-1]) := by decide

/-- The highest `pc` with room. -/
theorem witness_PcRoom_top : PcRoom 1 { State.reset with pc := 18446744073709551614 } ∧
    ¬ PcRoom 1 { State.reset with pc := 18446744073709551615 } := by decide

/-- Both modes, with an operand in each mode. -/
theorem witness_PcOverflowAtTheTop : ({ State.reset with pc := 18446744073709551615 } : State).state = .executing ∧
    ({ State.reset with pc := 18446744073709551615 } : State).pc.toNat = u64Max ∧
    (∀ m : Mode, (⟨.known m, 0⟩ : Operand).mode = .known m) ∧ Params.defaults.memCapacity = none ∧
    Params.defaults.overflow = .fault ∧ ({ Params.defaults with overflow := .wrap } : Params).overflow = .wrap ∧
    ({ Params.defaults with overflow := .wrap } : Params).memCapacity = none := by
  refine ⟨?_, ?_, fun _ => rfl, ?_⟩ <;> decide

/-- Each row of the table: a step from each execution state. -/
theorem witness_TransitionsOfTheTable :
    (∃ t, step { boot [] with state := .done } = .next t) ∧
    (∃ t, step { boot [] with state := .faulted .negativePointer } = .next t) ∧
    (∃ t, step { boot [] with state := .hasOutput } = .next t) ∧
    (∃ t, step { boot [] with state := .needsInput 5 } = .next t) ∧
    (∃ t, step { boot [] with state := .needsInput 5, iq := [1] } = .next t) ∧
    (∃ t, step (boot [3, 5]) = .next t) ∧ (∃ t, step (boot [104, 5]) = .next t) ∧ (∃ t, step (boot [99]) = .next t) ∧
    ∃ t, step (boot [1, 0, 0, 0]) = .next t :=
  ⟨⟨_, rfl⟩, ⟨_, rfl⟩, ⟨_, rfl⟩, ⟨_, rfl⟩, ⟨_, rfl⟩, ⟨_, rfl⟩, ⟨_, rfl⟩, ⟨_, rfl⟩, ⟨_, rfl⟩⟩

theorem witness_DoneStaysDone : ({ boot [99] with pc := 1, state := .done } : State).state = .done ∧
    ∃ t, stepTransaction step 1 (boot [99]) = .reported .done t := ⟨rfl, _, rfl⟩

theorem witness_FaultedStaysFaulted :
    ({ boot [0] with pc := 1, state := .faulted .unrecognizedOpcode } : State).state = .faulted .unrecognizedOpcode := by decide

theorem witness_HasOutputResumes : (∃ t, step (boot [104, 5]) = .next t ∧ t.state = .hasOutput) ∧
    ({ boot [99] with state := .hasOutput, oq := [7] } : State).state = .hasOutput := ⟨⟨_, rfl, rfl⟩, rfl⟩

theorem witness_NeedsInputDeliversOrReports :
    (({ boot [3, 5] with state := .needsInput 5, iq := [1, 2] } : State).state = .needsInput 5 ∧
      ({ boot [3, 5] with state := .needsInput 5, iq := [1, 2] } : State).iq = 1 :: [2]) ∧
    (({ boot [3, 5] with state := .needsInput 5 } : State).state = .needsInput 5 ∧
      ({ boot [3, 5] with state := .needsInput 5 } : State).iq = []) ∧
    ((boot [3, 5]).state = .executing ∧ step (boot [3, 5]) = .next { boot [3, 5] with pc := 2, state := .needsInput 5 }) :=
  ⟨by decide, by decide, by decide, rfl⟩

/-- One Step for each kind of report. -/
theorem witness_ReportSaysTheState :
    (∃ t, stepTransaction step 2 (boot [99]) = .reported .done t) ∧
    (∃ t, stepTransaction step 2 (boot [0]) = .reported (.fault .unrecognizedOpcode) t) ∧
    (∃ t, stepTransaction step 2 (boot [3, 5]) = .reported .needsInput t) ∧
    ∃ t, stepTransaction step 2 (boot [104, 5]) = .reported .hasOutput t :=
  ⟨⟨_, rfl⟩, ⟨_, rfl⟩, ⟨_, rfl⟩, ⟨_, rfl⟩⟩

theorem witness_MoreFuelSameAnswer : 2 ≤ 9 ∧ stepTransaction step 2 (boot [104, 5]) ≠ .noAnswer := by decide

/-- A Step for each report, and a Run for each of its ends. -/
theorem witness_RunEndsAsTheCoreDoes :
    ((∃ t, stepTransaction step 2 (boot [99]) = .reported .done t) ∧
      (∃ t, stepTransaction step 2 (boot [3, 5]) = .reported .needsInput t) ∧
      (∃ t, stepTransaction step 2 (boot [0]) = .reported (.fault .unrecognizedOpcode) t) ∧
      ∃ t, stepTransaction step 2 (boot [104, 5]) = .reported .hasOutput t) ∧
    (∃ t, runTransaction step 2 3 (boot [104, 7, 99]) = .ok t) ∧
    (∃ t, runTransaction step 2 3 (boot [3, 0, 99]) = .error .runNeedsInput t) ∧
    ∃ t, runTransaction step 2 3 (boot [104, 7]) = .error (.fault .unrecognizedOpcode) t :=
  ⟨⟨⟨_, rfl⟩, ⟨_, rfl⟩, ⟨_, rfl⟩, ⟨_, rfl⟩⟩, ⟨_, rfl⟩, ⟨_, rfl⟩, ⟨_, rfl⟩⟩

/-- A state of format F3 whose operands use all three modes, at the boundary of the range of the sum. -/
def sample : State := { boot [0, 9223372036854775806, 0, 0, 0, 3] with pc := 1, rb := 2 }

/-- The sum of the operands is `I64_MAX`. -/
theorem witness_AddStoresSum : ReadyF3 (pos 1) (imm 1) (rel 3) sample ∧
    InI64 ((readValue (pos 1) sample).toInt + (readValue (imm 1) sample).toInt) := by
  simp only [ReadyF3, Readable, Writable, exactAddress, pos, imm, rel]
  decide

theorem witness_MulStoresProduct : ReadyF3 (pos 1) (imm 1) (rel 3) sample ∧
    InI64 ((readValue (pos 1) sample).toInt * (readValue (imm 1) sample).toInt) := by
  simp only [ReadyF3, Readable, Writable, exactAddress, pos, imm, rel]
  decide

theorem witness_LtStoresRelation : ReadyF3 (pos 1) (imm 1) (rel 3) sample := witness_AddStoresSum.1

theorem witness_EqStoresRelation : ReadyF3 (pos 1) (imm 1) (rel 3) sample := witness_AddStoresSum.1

/-- Addresses at the top of their range, addresses 0, Immediate mode on the write operand, and the highest `pc`. -/
theorem witness_ReadyF3_bounds :
    ReadyF3 (pos 9223372036854775807) (rel (-2)) (imm 9223372036854775807)
      { sample with pc := 18446744073709551612 } := by
  simp only [ReadyF3, Readable, Writable, exactAddress, pos, imm, rel]
  decide

/-- The sum is `I64_MAX`. -/
theorem witness_ArbAddsToBase : ReadyF1R (imm 9223372036854775805) sample ∧
    InI64 (sample.rb.toInt + (readValue (imm 9223372036854775805) sample).toInt) := by
  simp only [ReadyF1R, Readable, imm]
  decide

theorem witness_OutAppendsValue : ReadyF1R (imm (-5)) sample ∧ ReadyF1R (rel 3) sample ∧ ReadyF1R (pos 0) sample := by
  simp only [ReadyF1R, Readable, exactAddress, pos, imm, rel]
  decide

theorem witness_InWaitsAtItsAddress :
    ReadyF1W (pos 0) sample ∧ ReadyF1W (rel (-2)) sample ∧ ReadyF1W (imm 9223372036854775807) sample := by
  simp only [ReadyF1W, Writable, exactAddress, pos, imm, rel]
  decide

/-- A jump on a value that is not zero, to target 0, and one on zero. -/
theorem witness_JumpsOverwritePc : (ReadyF2J (imm (-1)) (imm 0) sample ∧ (readValue (imm (-1)) sample).toInt ≠ 0) ∧
    ReadyF2J (pos 0) (rel 3) sample ∧ (readValue (pos 0) sample).toInt = 0 := by
  simp only [ReadyF2J, Readable, exactAddress, pos, imm, rel]
  decide

/-- A sum, a product and a base one past `I64_MAX` or above. -/
theorem witness_OverflowRaises : (ReadyF3 (pos 1) (imm 2) (rel 3) sample ∧
      ¬ InI64 ((readValue (pos 1) sample).toInt + (readValue (imm 2) sample).toInt) ∧
      ¬ InI64 ((readValue (pos 1) sample).toInt * (readValue (imm 2) sample).toInt)) ∧
    ReadyF1R (imm 9223372036854775806) sample ∧
      ¬ InI64 (sample.rb.toInt + (readValue (imm 9223372036854775806) sample).toInt) := by
  simp only [ReadyF3, ReadyF1R, Readable, Writable, exactAddress, pos, imm, rel]
  decide

theorem witness_HltEndsTheRun : (boot [9223372036854775799]).state = .executing ∧ PcRoom 1 (boot [9223372036854775799]) ∧
    0 ≤ ((boot [9223372036854775799]).mem.read (boot [9223372036854775799]).pc.toNat).toInt ∧
    ((boot [9223372036854775799]).mem.read (boot [9223372036854775799]).pc.toNat).toInt % 100 = 99 := by decide

theorem witness_OverflowWraps : (({ Params.defaults with overflow := .wrap } : Params).Unbounded ∧
      ({ Params.defaults with overflow := .wrap } : Params).overflow = .wrap) ∧
    ReadyF3 (pos 1) (imm 2) (rel 3) sample ∧ ReadyF1R (imm 9223372036854775806) sample :=
  ⟨⟨⟨rfl, rfl, rfl⟩, rfl⟩, witness_OverflowRaises.1.1, witness_OverflowRaises.2.1⟩

/-- Both clauses: a sum that wraps to a negative address, and one that wraps to address 0. -/
theorem witness_RelativeSumWraps : (({ Params.defaults with overflow := .wrap } : Params).memCapacity = none ∧
      ({ Params.defaults with overflow := .wrap } : Params).overflow = .wrap) ∧
    ((rel 9223372036854775806).mode = .known .relative ∧ PcRoom 1 sample ∧
      (cellOfInt ((rel 9223372036854775806).raw.toInt + sample.rb.toInt)).toInt < 0) ∧
    0 ≤ (cellOfInt ((rel (-9223372036854775808)).raw.toInt +
      ({ sample with rb := -9223372036854775808 } : State).rb.toInt)).toInt := by decide

/-- The first fault in the second operand, in the third, and in an operand whose cell stands at `U64_MAX`. -/
theorem witness_FirstFaultIsTaken :
    firstFault (operandsByKind (.add (imm 1) (bad 3 1) (pos (-1)))) sample =
      some (.unrecognizedAddressingMode, { sample with pc := 2 }) ∧
    firstFault (operandsByKind (.add (imm 1) (imm 1) (rel (-3)))) sample = some (.negativePointer, { sample with pc := 4 }) ∧
    firstFault (operandsByKind (.add (imm 1) (pos (-1)) (bad 3 1))) { sample with pc := 18446744073709551614 } =
      some (.pcOverflow, { sample with
        pc := 18446744073709551615
        mem := (sample.mem.touch 18446744073709551614).touch 18446744073709551615 }) :=
  ⟨rfl, rfl, rfl⟩

theorem witness_NegativeAddressesAreCaught : (pos (-1)).mode = .known .position ∧ PcRoom 1 sample ∧
    (i64Min ≤ exactAddress .position (-1) sample.rb ∧ exactAddress .position (-1) sample.rb < 0) ∧
    (i64Min ≤ exactAddress .relative (-3) sample.rb ∧ exactAddress .relative (-3) sample.rb < 0) := by decide

theorem witness_UnsignedOperandChecksValue :
    signedOperand params (imm (-1)) sample = .ok (-1) { sample with pc := 2 } ∧ (-1 : Cell).toInt < 0 ∧
    signedOperand params (imm 9223372036854775807) sample = .ok 9223372036854775807 { sample with pc := 2 } ∧
    0 ≤ (9223372036854775807 : Cell).toInt ∧
    signedOperand params (bad 3 0) sample = .raised .unrecognizedAddressingMode sample := ⟨rfl, by decide, rfl, by decide, rfl⟩

theorem witness_UntakenJumpChecksTarget : Readable (imm 0) sample ∧ Readable (imm (-1)) sample ∧ PcRoom 2 sample ∧
    (readValue (imm (-1)) sample).toInt < 0 := ⟨trivial, trivial, by decide, by decide⟩

theorem witness_FaultsArePrecise : step (boot [204, -1, 99]) = .next { boot [204, -1, 99] with pc := 2, state := .faulted .negativePointer } :=
  rfl

/-- Each storing instruction comes to a next state, and ADD to a fault as well. -/
theorem witness_StoringInstrsFrame :
    (∃ t, exec (.add (pos 1) (imm 1) (rel 3)) sample = .next t) ∧ (∃ t, exec (.mul (pos 1) (imm 1) (rel 3)) sample = .next t) ∧
    (∃ t, exec (.lt (pos 1) (imm 1) (rel 3)) sample = .next t) ∧ (∃ t, exec (.eq (pos 1) (imm 1) (rel 3)) sample = .next t) ∧
    ∃ t, exec (.add (pos 1) (imm 2) (rel 3)) sample = .next t :=
  ⟨⟨_, rfl⟩, ⟨_, rfl⟩, ⟨_, rfl⟩, ⟨_, rfl⟩, ⟨_, rfl⟩⟩

theorem witness_OtherInstrsFrame :
    (∃ t, exec (.inp (pos 1)) sample = .next t) ∧ (∃ t, exec (.out (imm 1)) sample = .next t) ∧
    (∃ t, exec (.jt (imm 1) (imm 0)) sample = .next t) ∧ (∃ t, exec (.jf (imm 1) (imm 0)) sample = .next t) ∧
    (∃ t, exec (.arb (imm 1)) sample = .next t) ∧ ∃ t, exec .hlt sample = .next t :=
  ⟨⟨_, rfl⟩, ⟨_, rfl⟩, ⟨_, rfl⟩, ⟨_, rfl⟩, ⟨_, rfl⟩, ⟨_, rfl⟩⟩

theorem witness_OnlyArbChangesBase : ∃ t, step (boot [109, 7]) = .next t ∧ t.rb ≠ (boot [109, 7]).rb := ⟨_, rfl, by decide⟩

/-- A step that takes a value, and one that appends one. -/
theorem witness_QueuesMoveByOneValue :
    (∃ t, step { boot [] with state := .needsInput 5, iq := [1] } = .next t ∧ t.iq ≠ [1]) ∧
    ∃ t, step (boot [104, 5]) = .next t ∧ t.oq ≠ [] := ⟨⟨_, rfl, by decide⟩, _, rfl, by decide⟩

theorem witness_OnlyStoresChangeCells :
    (∃ t, step { boot [] with state := .needsInput 5, iq := [1] } = .next t ∧ t.mem.read 5 ≠ (boot []).mem.read 5) ∧
    ∃ t, step (boot [1, 0, 0, 0]) = .next t ∧ t.mem.read 0 ≠ (boot [1, 0, 0, 0]).mem.read 0 :=
  ⟨⟨_, rfl, by decide⟩, _, rfl, by decide⟩

theorem witness_MemlenNeverDecreases : ∃ t, step (boot [4, 10]) = .next t ∧ t.mem.len = 11 := ⟨_, rfl, by decide⟩

/-- The two edges of the capacity; a fetch, an operand's read, a store and an input's delivery at it; a full `OQ`. -/
theorem witness_FiniteLimitsHold :
    (({ Params.defaults with memCapacity := some 5 } : Params).memCapacity = some 5 ∧
      ({ State.reset with pc := 5 } : State).state = .executing ∧ 5 ≤ ({ State.reset with pc := 5 } : State).pc.toNat) ∧
    (Readable (pos 5) sample ∧ PcRoom 1 sample ∧ sample.pc.toNat < 5 ∧ readAddress (pos 5) sample = some 5) ∧
    (ReadyF3 (pos 0) (rel 2) (imm 5) sample ∧ sample.pc.toNat + 3 ≤ 5 ∧ ReadsBelow 5 (pos 0) sample ∧
      ReadsBelow 5 (rel 2) sample ∧ 5 ≤ writeAddress (imm 5) sample ∧
      InI64 ((readValue (pos 0) sample).toInt + (readValue (rel 2) sample).toInt) ∧
      InI64 ((readValue (pos 0) sample).toInt * (readValue (rel 2) sample).toInt)) ∧
    (({ boot [] with state := .needsInput 5, iq := [1] } : State).state = .needsInput 5 ∧
      ({ boot [] with state := .needsInput 5, iq := [1] } : State).iq ≠ [] ∧ 5 ≤ (5 : Addr).toNat) ∧
    (({ Params.defaults with oqDepth := some 1 } : Params).memCapacity = none ∧
      ({ Params.defaults with oqDepth := some 1 } : Params).oqDepth = some 1 ∧
      ReadyF1R (imm 5) { State.reset with oq := [7] } ∧ ({ State.reset with oq := [7] } : State).oq.length = 1 ∧ 0 < 1) := by
  have hr : Readable (pos 5) sample := by
    simp only [Readable, exactAddress, pos]
    decide
  have hw : ReadyF3 (pos 0) (rel 2) (imm 5) sample := by
    simp only [ReadyF3, Readable, Writable, exactAddress, pos, imm, rel]
    decide
  have hb : ∀ (o : Operand) (b : Nat), readAddress o sample = some b → b < 5 → ReadsBelow 5 o sample :=
    fun o b h hlt a ha => by rw [h] at ha; cases ha; exact hlt
  exact ⟨by decide, ⟨hr, by decide, by decide, rfl⟩,
    ⟨hw, by decide, hb _ 0 rfl (by decide), hb _ 4 rfl (by decide), by decide, by decide, by decide⟩, by decide,
    rfl, rfl, ⟨trivial, by decide⟩, rfl, by decide⟩

theorem witness_OutputDequeueTakesFront : ({ State.reset with oq := [7, 8] } : State).oq = 7 :: [8] ∧ State.reset.oq = [] := by decide

theorem witness_InputEnqueueAppends :
    (∃ t u, ({ boot [] with state := .needsInput 5 } : State).state = .needsInput 5 ∧
      inputEnqueue 9 { boot [] with state := .needsInput 5 } = some t ∧ step t = .next u) ∧
    ({ Params.defaults with iqDepth := some 0 } : Params).iqDepth = some 0 := ⟨⟨_, _, rfl, rfl, rfl⟩, rfl⟩

theorem witness_PeekShowsTheMachine : 2 < (boot [1, 0, 99]).mem.len := by decide

/-- Two linked cores: core 0 emits 5 to the queue core 1 reads. -/
def pair : System :=
  { nodes := [{ pc := 0, rb := 0, mem := (boot [104, 5, 99]).mem, state := .executing, inQ := 0, outQ := 1, inStep := false },
      { pc := 0, rb := 0, mem := (boot [3, 9, 99]).mem, state := .executing, inQ := 1, outQ := 2, inStep := false }]
    queues := [[], [], []] }

/-- The system, if there is a next one. -/
def systemOf : Host.Outcome System Fault Refusal → Option System
  | .next s => some s
  | .fault _ => none
  | .refused _ => none

/-- Why there is no next one, if there is none. -/
def stopOf : Host.Outcome System Fault Refusal → Option (Fault ⊕ Refusal)
  | .next _ => none
  | .fault r => some (.inl r)
  | .refused r => some (.inr r)

/-- `pair` with a clone of core 1, which is core 2, and core `k` moved once. -/
def clonedAndMoved (k : Nat) : Option System :=
  (systemOf (pair.snapshot 1)).bind fun sys => systemOf (sys.tick params k)

/-- R196: the IN of core 1 begins a Step, and so does the clone's: the other of the two is then refused, and core 0, which
shares no queue end with them, is not. -/
theorem test_second_sharer : ((clonedAndMoved 1).bind fun sys => stopOf (sys.tick params 2)) = some (.inr .sharedQueueBusy) ∧
    ((clonedAndMoved 2).bind fun sys => stopOf (sys.tick params 1)) = some (.inr .sharedQueueBusy) ∧
    ((clonedAndMoved 1).bind fun sys => systemOf (sys.tick params 0)).isSome = true := by decide

/-- R85: the Step that an IN begins ends when it reports `NeedsInput`, and the other sharer may then move. -/
theorem test_step_ends : ((clonedAndMoved 1).bind fun sys => systemOf (sys.tick params 1)).map
      (fun sys => (sys.nodes.map Node.inStep, (systemOf (sys.tick params 2)).isSome)) = some ([false, false, false], true) := by
  decide

/-- R5, R158: no transaction on a core inside a Step. -/
theorem test_inside_step : ((clonedAndMoved 1).bind fun sys => stopOf (sys.snapshot 1)) = some (.inr .coreInsideStep) ∧
    ((clonedAndMoved 1).bind fun sys => stopOf (sys.inputEnqueue params 1 7)) = some (.inr .coreInsideStep) ∧
    ((clonedAndMoved 1).bind fun sys => stopOf (sys.load [99] 1)) = some (.inr .coreInsideStep) := by decide

/-- R4: a queue that links two cores has the smaller of the two depths, and a full one holds the host. -/
theorem test_depths : pair.depth { params with iqDepth := some 3, oqDepth := some 2 } 1 = some 2 ∧
    pair.depth { params with iqDepth := some 3, oqDepth := some 2 } 0 = some 3 ∧
    stopOf (pair.inputEnqueue { params with iqDepth := some 0 } 0 7) = some (.inl .inputHeld) ∧
    stopOf (pair.tick { params with iqDepth := some 0 } 0) = some (.inl .outputHeld) := by decide

/-- R113: core 0 of `pair`, inside a Step, with a full queue 1. -/
def held : System := { pair with nodes := pair.nodes.map fun n => { n with inStep := true }, queues := [[], [7], []] }

/-- R113: an OUT that is held inside a Step goes on after the host removed a value. -/
theorem test_hold_is_lifted : stopOf (held.tick { params with oqDepth := some 1 } 0) = some (.inl .outputHeld) ∧
    (match held.outputDequeue { params with oqDepth := some 1 } 0 with
      | .next (some 7, sys) => (systemOf (sys.tick { params with oqDepth := some 1 } 0)).map fun sys => sys.queue 1
      | _ => none) = some [5] := by decide

/-- R190: a Load over core 1 of `pair` with values in every queue: queue 2 is its own, queue 1 links it to core 0. -/
theorem test_load_over_core : (systemOf ({ pair with queues := [[1], [2], [3]] }.load [99] 1)).map
    (fun sys => (sys.queues, sys.nodes.map fun n => (n.pc, n.mem.len))) = some ([[1], [2], []], [(0, 3), (0, 1)]) := by decide

/-- R190: a Load over core 1 beside its clone, core 2, with a value in the queue they append to: the clone keeps it, and the
loaded core has an empty queue of its own; the queue that links both to core 0 is kept. -/
theorem test_load_over_clone : ((systemOf (pair.snapshot 1)).bind fun sys =>
      systemOf ({ sys with queues := [[1], [2], [3]] }.load [99] 1)).map
    (fun sys => (sys.queues, sys.nodes.map fun n => (n.inQ, n.outQ))) =
      some ([[1], [2], [3], []], [(0, 1), (1, 3), (1, 2)]) := by decide

theorem witness_CoresOwnTheirMemory : (pair.nodes[0]?).isSome = true ∧ (systemOf (pair.tick params 0)).isSome = true := by decide

theorem witness_SnapshotSharesOnlyQueues : (pair.nodes[1]?.map Node.inStep) = some false ∧
    ((systemOf (pair.snapshot 1)).map fun sys =>
      (systemOf (sys.tick params 1)).isSome && (systemOf (sys.tick params 2)).isSome) = some true := by decide

/-- The clone is refused while its original is inside a Step, and the original while the clone is; core 0 is not. -/
theorem witness_SecondSharerIsRefused : (∃ sys n m, clonedAndMoved 1 = some sys ∧ sys.nodes[1]? = some n ∧
      sys.nodes[2]? = some m ∧ n.inStep = true ∧ sharesEnd n m = true) ∧
    (∃ sys n m, clonedAndMoved 2 = some sys ∧ sys.nodes[2]? = some n ∧ sys.nodes[1]? = some m ∧ n.inStep = true ∧
      sharesEnd n m = true) ∧
    (∃ sys m, clonedAndMoved 1 = some sys ∧ sys.nodes[0]? = some m ∧ sys.nodes.all (fun n => n == m || !sharesEnd n m) = true) ∧
    (∃ n, held.nodes[0]? = some n ∧ n.inStep = true ∧ held.queue n.outQ = 7 :: [] ∧
      stepUnder (held.paramsOf { params with oqDepth := some 1 } n) (held.view n) = .fault .outputHeld ∧
      stepUnder (held.paramsOf params n) (held.view n) ≠ .fault .outputHeld) ∧
    pair.Exclusive :=
  ⟨⟨_, _, _, rfl, rfl, rfl, rfl, rfl⟩, ⟨_, _, _, rfl, rfl, rfl, rfl, rfl⟩, ⟨_, _, rfl, rfl, by decide⟩,
    ⟨_, rfl, rfl, rfl, rfl, nofun⟩, fun i j n m hij hn hm hs => by
      have hi : i < 2 := (List.getElem?_eq_some_iff.mp hn).1
      interval_cases i <;> cases hn <;> exact .inl rfl⟩

/-- The emitted value is taken by the other core. -/
theorem witness_QueuesAreFifo : 1 < pair.queues.length ∧ System.emitted params 1 pair [0, 1, 1] = [5] ∧
    System.taken params 1 pair [0, 1, 1] = [5] := by decide

theorem pair_wellWired : pair.WellWired := by
  refine ⟨fun i j n m hij hn hm => ?_, by simp only [System.Attached]; decide⟩
  have hi : i < 2 := (List.getElem?_eq_some_iff.mp hn).1
  have hj : j < 2 := (List.getElem?_eq_some_iff.mp hm).1
  interval_cases i <;> interval_cases j <;> cases hn <;> cases hm <;> first | exact absurd rfl hij | rfl

theorem witness_DistinctCoresCommute : pair.WellWired ∧ (0 : Nat) ≠ 1 ∧ pair.enabled params 0 = true ∧
    pair.enabled params 1 = true :=
  ⟨pair_wellWired, by decide, by decide, by decide⟩

/-- Two schedules in different orders, both run to the end. -/
theorem witness_InterleavingDoesNotMatter : pair.WellWired ∧
    (pair.runSchedule params [0, 0, 0, 1, 1, 1]).Quiescent params ∧
    (pair.runSchedule params [1, 0, 1, 0, 1, 0]).Quiescent params := by
  have h : ∀ sys : System, sys.nodes.length = 2 → sys.enabled params 0 = false → sys.enabled params 1 = false →
      sys.Quiescent params :=
    fun sys hl h0 h1 k => by
      match k with
      | 0 => exact h0
      | 1 => exact h1
      | k + 2 => simp [System.enabled, List.getElem?_eq_none (by omega : sys.nodes.length ≤ k + 2)]
  exact ⟨pair_wellWired, h _ (by decide) (by decide) (by decide), h _ (by decide) (by decide) (by decide)⟩

end Sys2Proof.Tests
end

section
/-!
PROOFS. The family `20_memory.md`: what a write leaves in memory (R33) and what a later read gives (R34).
-/

namespace Sys2Proof.Machine

open Sys2Proof

/-! ## Reads past the sequence and after many writes -/

/-- R31: a canonical memory lists no cell past its end. -/
theorem read_past_len {m : Memory} {x : Nat} (hwf : m.wf = true) (hx : m.len ≤ x) : m.read x = 0 := by
  obtain ⟨-, hlt, -⟩ := (wf_iff m).mp hwf
  refine lookupCell_not_listed fun c hc => ?_
  have := hlt c hc
  omega

theorem read_load_past_rom {rom : List Cell} {a : Nat} (h : rom.length ≤ a) : (State.load rom).mem.read a = 0 := by
  rw [read_load, List.getD_eq_default _ _ h]

/-- Only a write to an address itself changes what it reads as. -/
theorem read_foldl_write_other {a : Addr} {writes : List (Addr × Cell)} (h : ∀ w ∈ writes, w.1 ≠ a) (m : Memory) :
    (writes.foldl (fun m w => Memory.write m w.1.toNat w.2) m).read a.toNat = m.read a.toNat := by
  induction writes generalizing m with
  | nil => rfl
  | cons w writes ih =>
    obtain ⟨hw, hrest⟩ := List.forall_mem_cons.mp h
    have hne : a.toNat ≠ w.1.toNat := fun e => hw (BitVec.eq_of_toNat_eq e.symm)
    rw [List.foldl_cons, ih hrest, read_write_other m w.2 hne]

/-- R32: under the default parameters a read gives the cell's value. -/
theorem memRead_gives {s : State} {a : Nat} {v : Cell} (h : s.mem.read a = v) : ∃ u, memRead params a s = .ok v u :=
  ⟨_, h ▸ memRead_unbounded rfl a s⟩

/-! ## Growth by a write -/

theorem len_write_eq_ite (m : Memory) (a : Nat) (v : Cell) :
    (m.write a v).len = if m.len ≤ a then a + 1 else m.len := by
  rw [len_write]
  split <;> omega

/-- R33: the cells that growth appends hold 0. -/
theorem read_write_past_len {m : Memory} {a x : Nat} (v : Cell) (hwf : m.wf = true) (hx : m.len ≤ x) (hne : x ≠ a) :
    (m.write a v).read x = 0 := by
  rw [read_write_other m v hne, read_past_len hwf hx]

/-! ## The obligations -/

/-- Settles O6: under the default parameters a write has its closed form, so the read after it sees the cell written; an
address that no write names keeps what Load left there. -/
theorem writeThenReadReturnsValue : Obligations.WriteThenReadReturnsValue := by
  refine ⟨fun a v s t h => ?_, fun a v s => ⟨_, memWrite_unbounded rfl a.toNat v s⟩, fun rom writes a hrom hw => ?_⟩
  · rw [memWrite_unbounded rfl] at h
    cases h
    exact memRead_gives (read_write_same s.mem a.toNat v)
  · exact memRead_gives ((read_foldl_write_other hw _).trans (read_load_past_rom hrom))

/-- Settles O7: the state after a write is the state before it with `Memory.write` done, whose length and cells the laws of
memory give; the bound on a resolved write address is `writeOperand_range`. -/
theorem writeChangesOneCell : Obligations.WriteChangesOneCell := by
  refine ⟨fun a v s => ⟨{ s with mem := s.mem.write a.toNat v }, ?_⟩, fun _ _ _ _ => writeOperand_range⟩
  exact ⟨memWrite_unbounded rfl a.toNat v s,
    len_write_eq_ite s.mem a.toNat v,
    read_write_same s.mem a.toNat v,
    fun _ hne => read_write_other s.mem v hne,
    fun hwf _ hx hne => read_write_past_len v hwf hx hne,
    rfl⟩

end Sys2Proof.Machine
end

section
/-!
PROOFS. The family `40_execution_cycle.md`: what a Step does in `Done` (R86), `HasOutput` (R87) and `NeedsInput` (R88).
-/

namespace Sys2Proof.Machine

open Sys2Proof

variable {s t : State}

/-! ## The report of a micro-step, by the state it leaves -/

theorem yieldOf_executing (h : t.state = .executing) : yieldOf s t = none := by
  simp only [yieldOf, h]

theorem yieldOf_hasOutput (h : t.state = .hasOutput) : yieldOf s t = some .hasOutput := by
  simp only [yieldOf, h]

/-- A micro-step reports Done exactly where it ends in `Done`. -/
theorem yieldOf_eq_done : yieldOf s t = some .done ↔ t.state = .done := by
  cases h : t.state with
  | needsInput d => cases k : s.state <;> simp [yieldOf, h, k]
  | _ => simp [yieldOf, h]

/-- R83: the IN that enters `NeedsInput` does not report. -/
theorem yieldOf_enters_needsInput {d : Addr} (hs : s.state = .executing) (ht : t.state = .needsInput d) :
    yieldOf s t = none := by
  simp only [yieldOf, ht, hs]

/-- R88: a micro-step that stays in `NeedsInput` reports it. -/
theorem yieldOf_stays_needsInput {d e : Addr} (hs : s.state = .needsInput d) (ht : t.state = .needsInput e) :
    yieldOf s t = some .needsInput := by
  simp only [yieldOf, ht, hs]

/-! ## One pass of the Step transaction -/

section Transaction
variable {micro : State → Host.Outcome State Fault Refusal} {r : Report}

/-- R85: a micro-step that yields ends the Step with its report. -/
theorem stepTransaction_yields (h : micro s = .next t) (hy : yieldOf s t = some r) (fuel : Nat) :
    stepTransaction micro (fuel + 1) s = .reported r t := by
  simp only [stepTransaction, h, hy]

/-- R85: the Step goes on after a micro-step that does not yield. -/
theorem stepTransaction_continues (h : micro s = .next t) (hy : yieldOf s t = none) (fuel : Nat) :
    stepTransaction micro (fuel + 1) s = stepTransaction micro fuel t := by
  simp only [stepTransaction, h, hy]

/-- R85: what a Step reports was yielded by the last of its micro-steps. -/
theorem yieldOf_of_reported {fuel : Nat} (h : stepTransaction micro fuel s = .reported r t) :
    ∃ u, micro u = .next t ∧ yieldOf u t = some r := by
  induction fuel generalizing s with
  | zero => cases h
  | succ fuel ih =>
    cases hm : micro s with
    | fault c => simp [stepTransaction, hm] at h
    | refused c => simp [stepTransaction, hm] at h
    | next u =>
      cases hy : yieldOf s u with
      | none => exact ih (stepTransaction_continues hm hy fuel ▸ h)
      | some q =>
        rw [stepTransaction_yields hm hy] at h
        cases h
        exact ⟨s, hm, hy⟩

end Transaction

/-! ## The states of R86 and R88 -/

/-- R86: a Step of a core in `Done` reports Done in its first micro-step. -/
theorem stepTransaction_done (h : s.state = .done) (fuel : Nat) :
    stepTransaction step (fuel + 1) s = .reported .done s :=
  stepTransaction_yields (step_done h) (yieldOf_eq_done.mpr h) fuel

/-- R83: IN alone has an effect that leaves `Executing` for `NeedsInput`. -/
theorem effect_needsInput {i : Instr} {u : State} {d : Addr} (h : Effect i s u t) (hu : u.state = .executing)
    (ht : t.state = .needsInput d) : t = awaitInput d u := by
  cases i with
  | inp w =>
    obtain ⟨e, -, -, rfl⟩ := h
    cases ht
    rfl
  | add a b w | mul a b w | lt a b w | eq a b w =>
    obtain ⟨-, v, rfl⟩ := h
    simp [hu] at ht
  | jt a p | jf a p =>
    obtain ⟨b, target, rfl⟩ := h
    simp [hu] at ht
  | out a =>
    obtain ⟨v, rfl⟩ := h
    cases ht
  | arb a =>
    obtain ⟨v, rfl⟩ := h
    simp [hu] at ht
  | hlt =>
    cases h
    cases ht

/-- R110: the step that enters `NeedsInput` consumes the cells of an IN, and then only sets `DEST` and STATE. -/
theorem step_enters_needsInput {d : Addr} (hs : s.state = .executing) (h : step s = .next t)
    (ht : t.state = .needsInput d) : ∃ u, Consumes s u ∧ t = awaitInput d u := by
  obtain ⟨u, hu, ⟨c, rfl⟩ | ⟨i, -, he⟩⟩ := step_executing_cases hs h
  · cases ht
  · exact ⟨u, hu, effect_needsInput he (hu.state.trans hs) ht⟩

/-! ## The obligations -/

/-- Settles O20: a micro-step in `Done` changes nothing and reports; and a Step that reported Done left the core in
`Done`. -/
theorem doneStaysDone : Obligations.DoneStaysDone := by
  refine ⟨fun s h => ⟨step_done h, stepTransaction_done h⟩, fun fuel more s t h => ?_⟩
  obtain ⟨u, -, hy⟩ := yieldOf_of_reported h
  exact stepTransaction_done (yieldOf_eq_done.mp hy) more

/-- Settles O22: ending in `HasOutput` yields, and the micro-step out of it ends in `Executing`, which does not. -/
theorem hasOutputResumes : Obligations.HasOutputResumes :=
  ⟨fun _ _ h ht => stepTransaction_yields h (yieldOf_hasOutput ht),
    fun _ h => ⟨step_hasOutput h, stepTransaction_continues (step_hasOutput h) (yieldOf_executing rfl)⟩⟩

/-- Settles O23: delivery ends in `Executing`, so the Step goes on; with nothing to take it stays in `NeedsInput`, so it
reports; and IN enters `NeedsInput` from `Executing`, which does not report, having consumed its cells alone. -/
theorem needsInputDeliversOrReports : Obligations.NeedsInputDeliversOrReports := by
  refine ⟨fun s d v rest h hq => ?delivers, fun s d h hq => ?waits, fun s t d hs h ht => ?enters⟩
  case delivers =>
    exact ⟨step_delivers h hq, stepTransaction_continues (step_delivers h hq) (yieldOf_executing rfl)⟩
  case waits =>
    exact ⟨step_waiting h hq, stepTransaction_yields (step_waiting h hq) (yieldOf_stays_needsInput h h)⟩
  case enters =>
    refine ⟨fun a => ?_, stepTransaction_continues h (yieldOf_enters_needsInput hs ht)⟩
    obtain ⟨u, hu, rfl⟩ := step_enters_needsInput hs h ht
    exact hu.read a

end Sys2Proof.Machine
end

section
/-!
PROOFS. The family `48_host_interface.md`: what the host takes from `OQ` (R154).
-/

namespace Sys2Proof.Machine

open Sys2Proof

variable {s : State}

/-! ## OutputDequeue, by what `OQ` holds -/

/-- R154: on a queue that holds a value, OutputDequeue answers the front and changes `OQ` alone. -/
theorem outputDequeue_of_cons {v : Cell} {rest : List Cell} (h : s.oq = v :: rest) :
    outputDequeue s = (some v, { s with oq := rest }) := by
  simp only [outputDequeue, h]

/-- R154: on an empty queue OutputDequeue answers Empty and changes nothing. -/
theorem outputDequeue_of_nil (h : s.oq = []) : outputDequeue s = (none, s) := by
  simp only [outputDequeue, h]

/-! ## The obligation -/

/-- Settles O51: the two answers of R154, neither of which asks for an execution state. -/
theorem outputDequeueTakesFront : Obligations.OutputDequeueTakesFront :=
  fun _ => ⟨fun _ _ => outputDequeue_of_cons, outputDequeue_of_nil⟩

end Sys2Proof.Machine
end

section
/-!
PROOFS. The family `30_encoding.md`, the encoding: decoding and encoding undo each other (R50, R51, R67), and which
digits of an instruction word are read (R52, R54 to R56, R65).
-/

namespace Sys2Proof

/-! ## The decimal digits of a number -/

/-- A digit of a number depends on the digits up to it alone. -/
theorem digit_congr {x y n k : Nat} (h : x % 10 ^ (2 + n) = y % 10 ^ (2 + n)) (hk : k < n) :
    x / 100 / 10 ^ k % 10 = y / 100 / 10 ^ k % 10 := by
  have digit : ∀ z : Nat, z / 100 / 10 ^ k % 10 = z % 10 ^ (2 + n) % 10 ^ (2 + k + 1) / 10 ^ (2 + k) := fun z => by
    rw [Nat.mod_mod_of_dvd z (Nat.pow_dvd_pow 10 (by omega : 2 + k + 1 ≤ 2 + n)), Nat.pow_succ,
      Nat.mod_mul_right_div_self, Nat.pow_add, Nat.div_div_eq_div_mul]
  rw [digit x, digit y, h]

/-- R51: the number whose lowest digits are the mode digits read from `m` is what `m` is modulo that many digits. -/
theorem modeNumber_digits (n m : Nat) (raw : Nat → Cell) :
    modeNumber ((List.range n).map fun k => ⟨modeOfDigit (m / modeRadix ^ k % modeRadix), raw k⟩) =
      m % modeRadix ^ n := by
  induction n generalizing m raw with
  | zero => simp [modeNumber, Nat.mod_one]
  | succ n ih =>
    have shift : ∀ k, m / modeRadix ^ (k + 1) = m / modeRadix / modeRadix ^ k := fun k => by
      rw [Nat.pow_succ', Nat.div_div_eq_div_mul]
    have htail := ih (m / modeRadix) (fun k => raw (k + 1))
    simp only [← shift] at htail
    rw [List.range_succ_eq_map, List.map_cons, List.map_map, modeNumber, Nat.pow_succ', Nat.mod_mul]
    simp only [Nat.pow_zero, Nat.div_one, digit_modeOfDigit]
    exact congrArg (m % modeRadix + modeRadix * ·) htail

/-- R51: the mode digits of well-formed operands are the digits of their number. -/
theorem digit_modeNumber {l : List Operand} (h : l.all Operand.wf = true) {k : Nat} {q : Operand} (hq : l[k]? = some q) :
    modeNumber l / modeRadix ^ k % modeRadix = q.mode.digit := by
  induction l generalizing k with
  | nil => simp at hq
  | cons o l ih =>
    simp only [List.all_cons, Bool.and_eq_true] at h
    obtain ⟨m, hm⟩ := ModeField.known_of_wf h.1
    have hd : o.mode.digit < modeRadix := by rw [hm]; exact Mode.digit_lt m
    have hpos : 0 < modeRadix := by decide
    cases k with
    | zero =>
      simp only [List.getElem?_cons_zero, Option.some.injEq] at hq
      rw [← hq, modeNumber, Nat.pow_zero, Nat.div_one, Nat.add_mul_mod_self_left, Nat.mod_eq_of_lt hd]
    | succ k =>
      rw [modeNumber, Nat.pow_succ', ← Nat.div_div_eq_div_mul, Nat.add_mul_div_left _ _ hpos, Nat.div_eq_of_lt hd,
        Nat.zero_add]
      exact ih h.2 (by simpa using hq)

/-! ## Words that are not negative -/

theorem toInt_eq_toNat {word : Cell} (h : 0 ≤ word.toInt) : word.toInt = word.toNat := by
  have := Machine.toNat_of_toInt_nonneg h
  omega

theorem toNat_ofNat_small {n : Nat} (h : n < 100000) : (BitVec.ofNat 64 n).toNat = n := by
  rw [BitVec.toNat_ofNat]
  omega

theorem toInt_ofNat_small {n : Nat} (h : n < 100000) : (BitVec.ofNat 64 n).toInt = n := by
  rw [BitVec.toInt_eq_toNat_cond, toNat_ofNat_small h, if_pos (by omega)]

/-! ## An instruction is its row and its operands -/

/-- R63: two instructions of one row with the same operands are the same. -/
theorem Instr.ext_operands {i j : Instr} (ho : i.opcode = j.opcode) (h : i.operands = j.operands) : i = j := by
  cases i <;> cases j <;> cases ho <;> cases h <;> rfl

theorem Operand.eq_of_mode_raw {x y : Operand} (hm : x.mode = y.mode) (hr : x.raw = y.raw) : x = y := by
  cases x
  cases y
  cases hm
  cases hr
  rfl

/-- R54 to R57: operand `k` of the instruction assembled has digit `k` above the opcode and the `k`-th raw word. -/
theorem operands_assemble (o : Opcode) (word : Nat) (r1 r2 r3 : Cell) :
    (assemble o word r1 r2 r3).operands =
      (List.range o.arity).map fun k => ⟨modeFieldAt word k, [r1, r2, r3].getD k 0⟩ := by
  cases o <;> rfl

theorem operands_assemble_some {o : Opcode} {word : Nat} {r1 r2 r3 : Cell} {k : Nat} {q : Operand}
    (h : (assemble o word r1 r2 r3).operands[k]? = some q) :
    q.mode = modeFieldAt word k ∧ [r1, r2, r3][k]? = some q.raw := by
  rw [operands_assemble, List.getElem?_map, Option.map_eq_some_iff] at h
  obtain ⟨j, hj, rfl⟩ := h
  obtain ⟨hlt, rfl⟩ := List.getElem?_eq_some_iff.mp hj
  have hk : k < 3 := Nat.lt_of_lt_of_le (by simpa using hlt) (Opcode.arity_le o)
  simp [List.getD, hk]

/-- R50: the raw words of the instruction assembled are the cells that follow its word. -/
theorem raws_assemble {o : Opcode} {rest : List Cell} (hl : o.arity ≤ rest.length) (word : Nat) :
    (assemble o word (rest.getD 0 0) (rest.getD 1 0) (rest.getD 2 0)).operands.map Operand.raw = rest.take o.arity := by
  rw [operands_assemble, List.map_map]
  refine List.ext_getElem (by simpa using hl) fun k hk hk' => ?_
  have hk3 : k < 3 := Nat.lt_of_lt_of_le (by simpa using hk) (Opcode.arity_le o)
  have hkr : k < rest.length := by simp at hk; omega
  interval_cases k <;> simp [List.getD, List.getElem?_eq_getElem hkr]

/-- R56: the instruction assembled depends on the digits that its operands consume. -/
theorem assemble_congr {o : Opcode} {word word' : Nat} (h : word' % 10 ^ (2 + o.arity) = word % 10 ^ (2 + o.arity))
    (r1 r2 r3 : Cell) : assemble o word' r1 r2 r3 = assemble o word r1 r2 r3 := by
  refine Instr.ext_operands (by simp) ?_
  rw [operands_assemble, operands_assemble]
  refine List.map_congr_left fun k hk => ?_
  rw [modeFieldAt, modeFieldAt]
  exact congrArg (fun d => Operand.mk (modeOfDigit d) _) (digit_congr h (List.mem_range.mp hk))

/-- R51: the canonical word of the instruction assembled has the digits that were consumed. -/
theorem word_assemble {o : Opcode} {word : Nat} (ho : o.code = word % opcodeRadix) (r1 r2 r3 : Cell) :
    (assemble o word r1 r2 r3).word = word % 10 ^ (2 + o.arity) := by
  rw [Instr.word, opcode_assemble, operands_assemble]
  simp only [modeFieldAt]
  rw [modeNumber_digits, ho, ← Nat.mod_mul, Nat.pow_add]
  rfl

/-! ## Well-formed instructions -/

/-- R55: the mode fields read from an instruction's word are its operands'. -/
theorem modeFieldAt_word {i : Instr} (h : i.wf = true) {k : Nat} {q : Operand} (hq : i.operands[k]? = some q) :
    modeFieldAt i.word k = q.mode := by
  have hc : i.word / opcodeRadix = modeNumber i.operands := by
    rw [Instr.word, Nat.add_mul_div_left _ _ (by decide), Nat.div_eq_of_lt (Opcode.code_lt _), Nat.zero_add]
  have hwf : q.wf = true := List.all_eq_true.mp h q (List.mem_of_getElem? hq)
  obtain ⟨m, hm⟩ := ModeField.known_of_wf hwf
  rw [modeFieldAt, hc, digit_modeNumber h hq, hm]
  exact modeOfDigit_digit m

/-- Assembling from an instruction's own word and raw words gives it back. -/
theorem assemble_word {i : Instr} (h : i.wf = true) (rest : List Cell) :
    assemble i.opcode i.word ((i.operands.map Operand.raw ++ rest).getD 0 0) ((i.operands.map Operand.raw ++ rest).getD 1 0)
      ((i.operands.map Operand.raw ++ rest).getD 2 0) = i := by
  have hraws := raws_assemble (o := i.opcode) (rest := i.operands.map Operand.raw ++ rest) (by simp) i.word
  rw [List.take_left' (by simp)] at hraws
  refine Instr.ext_operands (opcode_assemble ..) (List.ext_getElem (by simp) fun k hk hk' => ?_)
  refine Operand.eq_of_mode_raw ?_ (by simpa using List.getElem_of_eq hraws (i := k) (by simpa using hk))
  rw [(operands_assemble_some (List.getElem?_eq_getElem hk)).1]
  exact modeFieldAt_word h (List.getElem?_eq_getElem hk')

/-- R54: an instruction's canonical word selects its row. -/
theorem selectOpcode_word {i : Instr} (h : i.wf = true) : selectOpcode (BitVec.ofNat 64 i.word) = .ok i.opcode := by
  obtain ⟨-, hmod, hlt, -⟩ := Laws.EncodeShape.shape i h
  refine selectOpcode_row (by rw [toInt_ofNat_small hlt]; omega) ?_
  rw [toNat_ofNat_small hlt, hmod]

/-! ## What decoding a list can come to -/

theorem decode_eq_ok {cells rest : List Cell} {i : Instr} (h : decode cells = .ok (i, rest)) :
    ∃ word tail o, cells = word :: tail ∧ selectOpcode word = .ok o ∧ o.arity ≤ tail.length ∧ rest = tail.drop o.arity ∧
      i = assemble o word.toNat (tail.getD 0 0) (tail.getD 1 0) (tail.getD 2 0) := by
  cases cells with
  | nil => cases h
  | cons word tail =>
    cases ho : selectOpcode word with
    | error e => simp [decode, ho] at h
    | ok o =>
      by_cases hl : o.arity ≤ tail.length
      · rw [decode_cons ho hl] at h
        cases h
        exact ⟨word, tail, o, rfl, ho, hl, rfl, rfl⟩
      · simp [decode, ho, not_le.mp hl] at h

/-! ## The obligations -/

/-- Settles O2: the canonical word selects the instruction's row, and its digits and the raw words give the operands back. -/
theorem decodeUndoesEncode : Obligations.DecodeUndoesEncode := by
  intro i rest h
  obtain ⟨-, -, hlt, -⟩ := Laws.EncodeShape.shape i h
  rw [encode, List.cons_append, decode_cons (selectOpcode_word h) (by simp), toNat_ofNat_small hlt, assemble_word h,
    List.drop_left' (by simp)]

/-- Settles O3: the operands decoded carry the cells after the word, and the canonical word has the digits consumed. -/
theorem encodeUndoesDecode : Obligations.EncodeUndoesDecode := by
  intro cells rest i h
  obtain ⟨word, tail, o, rfl, ho, hl, rfl, rfl⟩ := decode_eq_ok h
  obtain ⟨h0, hcode⟩ := selectOpcode_eq_ok.mp ho
  refine ⟨word, by rw [raws_assemble hl, List.take_append_drop], _, rfl, ?_⟩
  have hlt : word.toNat % 10 ^ (2 + o.arity) < 100000 :=
    Nat.lt_of_lt_of_le (Nat.mod_lt _ (by positivity))
      (Nat.pow_le_pow_right (by decide) (Nat.add_le_add_left (Opcode.arity_le o) 2))
  rw [word_assemble hcode, toInt_ofNat_small hlt, length_operands, opcode_assemble, toInt_eq_toNat h0]
  push_cast
  rfl

/-- Settles O4: the sign is looked at first, then the row, and the operands are assembled from the digits above it. -/
theorem decodeReadsDecimalDigits : Obligations.DecodeReadsDecimalDigits := by
  refine fun word r1 r2 r3 => ⟨fun h => ?negative, fun h => ⟨fun o ho => ?row, fun hn => ?noRow⟩⟩
  case negative => rw [decodeWords, selectOpcode_negative h]
  case row =>
    rw [toInt_eq_toNat h] at ho ⊢
    have hrow := selectOpcode_row h (o := o) (by rw [opcodeRadix]; omega)
    refine ⟨_, decodeWords_eq_ok.mpr ⟨o, hrow, rfl⟩, opcode_assemble .., by simp, fun k q hq => ?_⟩
    obtain ⟨hm, hr⟩ := operands_assemble_some hq
    refine ⟨hm.trans (congrArg modeOfDigit ?_), hr⟩
    rw [Nat.div_div_eq_div_mul, opcodeRadix, modeRadix, show 100 * 10 ^ k = 10 ^ (k + 2) by rw [Nat.pow_add, Nat.mul_comm]]
    norm_cast
  case noRow =>
    rw [toInt_eq_toNat h] at hn ⊢
    rw [decodeWords, selectOpcode_none h fun o => ?_]
    · norm_cast
    · have := hn o
      rw [opcodeRadix]
      omega

/-- Settles O5: the row is selected by the lowest two digits, the operands by the next `arity` digits. -/
theorem unconsumedDigitsAreIgnored : Obligations.UnconsumedDigitsAreIgnored := by
  intro word word' r1 r2 r3 o ho h0' heq
  obtain ⟨h0, hcode⟩ := selectOpcode_eq_ok.mp ho
  rw [toInt_eq_toNat h0, toInt_eq_toNat h0'] at heq
  norm_cast at heq
  have hmod : word'.toNat % opcodeRadix = word.toNat % opcodeRadix := by
    have hdvd : opcodeRadix ∣ 10 ^ (2 + o.arity) := Nat.pow_dvd_pow 10 (Nat.le_add_right 2 _)
    rw [← Nat.mod_mod_of_dvd _ hdvd, heq, Nat.mod_mod_of_dvd _ hdvd]
  have ho' : selectOpcode word' = .ok o := selectOpcode_row h0' (by rw [hmod, hcode])
  simp only [decodeWords, ho, ho', assemble_congr heq]

/-- Settles O1: each word is decoded by evaluation. -/
theorem writtenOutWordsDecode : Obligations.WrittenOutWordsDecode := by
  refine ⟨?_, ?_, ?_, ?_, ?_, ?_, ?_, ?_, ?_, ?_, ?_, ?_, ?_, ?_⟩ <;> rfl

end Sys2Proof
end

section
/-!
PROOFS. What a micro-step can come to, said once for every execution state (`Stepped`), and what follows of it: the
invariant (R26), the table of transitions (R83), the frames and the limits of a step (R15, R20, R93), and the reports of
Step and Run (R85, R90, R91, R155).
-/

namespace Sys2Proof.Machine

open Sys2Proof

variable {s t u : State} {i : Instr}

/-! ## The effects of instructions -/

/-- The instructions that store: ADD, MUL, LT and EQ. -/
def Stores (i : Instr) (a b w : Operand) : Prop := i = .add a b w ∨ i = .mul a b w ∨ i = .lt a b w ∨ i = .eq a b w

/-- The six kinds of effect that an instruction `i`, begun in `s`, has on the state `u` in which its operands are
resolved. -/
inductive Effected (s u t : State) (i : Instr) : Prop
  | stores (a b w : Operand) (v : Cell) (hi : Stores i a b w) (hw : writeAddress w s ≤ i64Max.toNat)
      (e : t = { u with mem := u.mem.write (writeAddress w s) v })
  | waits (w : Operand) (d : Addr) (hi : i = .inp w) (hd : d.toNat = writeAddress w s) (hr : d.toNat ≤ i64Max.toNat)
      (e : t = awaitInput d u)
  | appends (a : Operand) (v : Cell) (hi : i = .out a) (e : t = { u with oq := u.oq ++ [v], state := .hasOutput })
  | jumps (a q : Operand) (b : Bool) (target : Addr) (hi : i = .jt a q ∨ i = .jf a q) (e : t = jumpIf b target u)
  | rebases (a : Operand) (r : Cell) (hi : i = .arb a) (e : t = { u with rb := r })
  | ends (hi : i = .hlt) (e : t = { u with state := .done })

theorem Effect.effected (h : Effect i s u t) : Effected s u t i := by
  cases i with
  | add a b w => exact let ⟨hw, v, e⟩ := h; .stores a b w v (.inl rfl) hw e
  | mul a b w => exact let ⟨hw, v, e⟩ := h; .stores a b w v (.inr (.inl rfl)) hw e
  | lt a b w => exact let ⟨hw, v, e⟩ := h; .stores a b w v (.inr (.inr (.inl rfl))) hw e
  | eq a b w => exact let ⟨hw, v, e⟩ := h; .stores a b w v (.inr (.inr (.inr rfl))) hw e
  | inp w => exact let ⟨d, hd, hr, e⟩ := h; .waits w d rfl hd hr e
  | out a => exact let ⟨v, e⟩ := h; .appends a v rfl e
  | jt a q => exact let ⟨b, target, e⟩ := h; .jumps a q b target (.inl rfl) e
  | jf a q => exact let ⟨b, target, e⟩ := h; .jumps a q b target (.inr rfl) e
  | arb a => exact let ⟨r, e⟩ := h; .rebases a r rfl e
  | hlt => exact .ends rfl h

theorem Effected.iq_eq (h : Effected s u t i) : t.iq = u.iq := by
  cases h <;> subst t <;> simp

/-- R15: only ARB's effect changes `rb`. -/
theorem Effected.rb_eq (h : Effected s u t i) : t.rb = u.rb ∨ ∃ a, i = .arb a := by
  cases h with
  | rebases a r hi e => exact .inr ⟨a, hi⟩
  | _ => subst t; exact .inl (by simp)

/-- R111: only OUT's effect appends to `OQ` and enters `HasOutput`. -/
theorem Effected.oq_cases (h : Effected s u t i) (hu : u.state = .executing) :
    (t.state ≠ .hasOutput ∧ t.oq = u.oq) ∨
      ((∃ a, i = .out a) ∧ t.state = .hasOutput ∧ ∃ v, t.oq = u.oq ++ [v]) := by
  cases h with
  | appends a v hi e => subst t; exact .inr ⟨⟨a, hi⟩, rfl, v, rfl⟩
  | _ => subst t; exact .inl (by simp [hu])

/-- The only cell an effect changes is the one a storing instruction writes to. -/
theorem Effected.read_eq (h : Effected s u t i) (x : Nat) :
    t.mem.read x = u.mem.read x ∨ ∃ a b w, Stores i a b w ∧ x = writeAddress w s := by
  cases h with
  | stores a b w v hi hw e =>
    subst t
    by_cases hx : x = writeAddress w s
    · exact .inr ⟨a, b, w, hi, hx⟩
    · exact .inl (read_write_other _ _ hx)
  | _ => subst t; exact .inl (by simp)

theorem Effected.len_le (h : Effected s u t i) : u.mem.len ≤ t.mem.len := by
  cases h with
  | stores a b w v hi hw e => subst t; simp
  | _ => subst t; simp

/-- R26: an effect keeps the invariant. -/
theorem Effected.inv (h : Effected s u t i) (hwf : u.mem.wf = true) (hu : u.state = .executing) : t.Inv := by
  cases h with
  | stores a b w v hi hw e =>
    subst t
    refine ⟨wf_write _ hwf (Nat.le_trans hw (by decide)), ?_⟩
    simp only [hu, ExecState.DestOk]
  | waits w d hi hd hr e => subst t; exact ⟨hwf, hr⟩
  | _ => subst t; exact ⟨by simpa using hwf, by simp [hu, ExecState.DestOk]⟩

/-! ## The micro-step, by execution state -/

/-- Everything a micro-step from `s` to `t` can be. -/
inductive Stepped (s t : State) : Prop
  | stays (hx : s.state ≠ .executing) (ho : s.state ≠ .hasOutput) (hq : ∀ d, s.state = .needsInput d → s.iq = [])
      (e : t = s)
  | resumes (hs : s.state = .hasOutput) (e : t = { s with state := .executing })
  | delivers (d : Addr) (v : Cell) (rest : List Cell) (hs : s.state = .needsInput d) (hq : s.iq = v :: rest)
      (e : t = { s with iq := rest, mem := s.mem.write d.toNat v, state := .executing })
  | raises (u : State) (c : Cause) (hs : s.state = .executing) (hu : Consumes s u) (e : t = u.raise c)
  | applies (u : State) (i : Instr) (hs : s.state = .executing) (hu : Consumes s u) (hi : decodeAt s = .ok i)
      (he : Effected s u t i)

theorem step_stepped (h : step s = .next t) : Stepped s t := by
  cases hs : s.state with
  | done =>
    rw [step_done hs] at h
    cases h
    exact .stays (by simp [hs]) (by simp [hs]) (by simp [hs]) rfl
  | faulted c =>
    rw [step_faulted hs] at h
    cases h
    exact .stays (by simp [hs]) (by simp [hs]) (by simp [hs]) rfl
  | hasOutput =>
    rw [step_hasOutput hs] at h
    cases h
    exact .resumes hs rfl
  | needsInput d =>
    cases hq : s.iq with
    | nil =>
      rw [step_waiting hs hq] at h
      cases h
      exact .stays (by simp [hs]) (by simp [hs]) (fun _ _ => hq) rfl
    | cons v rest =>
      rw [step_delivers hs hq] at h
      cases h
      exact .delivers d v rest hs hq rfl
  | executing =>
    obtain ⟨u, hu, ⟨c, e⟩ | ⟨i, hi, he⟩⟩ := step_executing_cases hs h
    · exact .raises u c hs hu e
    · exact .applies u i hs hu hi he.effected

/-- R111, R114: a step appends to `OQ` exactly where it enters `HasOutput`. -/
theorem Stepped.oq_cases (h : Stepped s t) :
    (t.state ≠ .hasOutput ∧ t.oq = s.oq) ∨
      (s.state = .executing ∧ t.state = .hasOutput ∧ ∃ v, t.oq = s.oq ++ [v]) := by
  cases h with
  | applies u i hs hu hi he =>
    rw [← hu.oq]
    exact (he.oq_cases (hu.state.trans hs)).imp_right fun ⟨_, h⟩ => ⟨hs, h⟩
  | stays hx ho hq e => subst t; exact .inl ⟨ho, rfl⟩
  | resumes hs e => subst t; exact .inl (by simp)
  | delivers d v rest hs hq e => subst t; exact .inl (by simp)
  | raises u c hs hu e => subst t; exact .inl ⟨by simp, hu.oq⟩

/-- R114: a step takes from `IQ` only to deliver. -/
theorem Stepped.iq_cases (h : Stepped s t) :
    t.iq = s.iq ∨ ∃ v d, s.iq = v :: t.iq ∧ s.state = .needsInput d ∧ t.mem.read d.toNat = v := by
  cases h with
  | delivers d v rest hs hq e => subst t; exact .inr ⟨v, d, hq, hs, read_write_same _ _ _⟩
  | applies u i hs hu hi he => exact .inl (he.iq_eq.trans hu.iq)
  | raises u c hs hu e => subst t; exact .inl hu.iq
  | stays hx ho hq e => subst t; exact .inl rfl
  | resumes hs e => subst t; exact .inl rfl

theorem Stepped.rb_cases (h : Stepped s t) : t.rb = s.rb ∨ s.state = .executing ∧ ∃ a, decodeAt s = .ok (.arb a) := by
  cases h with
  | applies u i hs hu hi he =>
    rw [← hu.rb]
    exact he.rb_eq.imp_right fun ⟨a, ha⟩ => ⟨hs, a, ha ▸ hi⟩
  | raises u c hs hu e => subst t; exact .inl hu.rb
  | stays hx ho hq e => subst t; exact .inl rfl
  | resumes hs e => subst t; exact .inl rfl
  | delivers d v rest hs hq e => subst t; exact .inl rfl

theorem Stepped.read_cases (h : Stepped s t) (x : Nat) :
    t.mem.read x = s.mem.read x ∨ (∃ d, s.state = .needsInput d ∧ x = d.toNat) ∨
      (s.state = .executing ∧ ∃ i a b w, decodeAt s = .ok i ∧ Stores i a b w ∧ x = writeAddress w s) := by
  cases h with
  | applies u i hs hu hi he =>
    rw [← hu.read]
    exact (he.read_eq x).imp_right fun ⟨a, b, w, hi', hx⟩ => .inr ⟨hs, i, a, b, w, hi, hi', hx⟩
  | delivers d v rest hs hq e =>
    subst t
    by_cases hx : x = d.toNat
    · exact .inr (.inl ⟨d, hs, hx⟩)
    · exact .inl (read_write_other _ _ hx)
  | raises u c hs hu e => subst t; exact .inl (hu.read x)
  | stays hx ho hq e => subst t; exact .inl rfl
  | resumes hs e => subst t; exact .inl rfl

theorem Stepped.len_le (h : Stepped s t) : s.mem.len ≤ t.mem.len := by
  cases h with
  | applies u i hs hu hi he => exact Nat.le_trans hu.len he.len_le
  | raises u c hs hu e => subst t; exact hu.len
  | delivers d v rest hs hq e => subst t; simp
  | stays hx ho hq e => subst t; exact Nat.le_refl _
  | resumes hs e => subst t; exact Nat.le_refl _

/-- R83, R176: a step that ends in `Faulted` stayed there or took a fault, with cells consumed and nothing else done. -/
theorem Stepped.faulted_consumes {c : Cause} (h : Stepped s t) (ht : t.state = .faulted c) :
    ∃ u, Consumes s u ∧ t = { u with state := .faulted c } := by
  cases h with
  | stays hx ho hq e => subst t; exact ⟨s, Consumes.refl s, by rw [← ht]⟩
  | raises u c' hs hu e => subst t; cases ht; exact ⟨u, hu, rfl⟩
  | resumes hs e => subst t; cases ht
  | delivers d v rest hs hq e => subst t; cases ht
  | applies u i hs hu hi he =>
    have hux := hu.state.trans hs
    cases he <;> subst t <;> simp [hux] at ht

/-! ## The obligations on one micro-step -/

/-- Settles O10: a micro-step stays, resumes, writes at an index, or consumes cells and then raises or applies one effect;
each keeps the canonical form, and only IN sets `DEST`, to a write address. -/
theorem stepKeepsInv : Obligations.StepKeepsInv := by
  intro s t hinv h
  obtain ⟨hwf, -⟩ := id hinv
  cases step_stepped h with
  | stays hx ho hq e => subst t; exact hinv
  | resumes hs e => subst t; exact ⟨hwf, trivial⟩
  | delivers d v rest hs hq e => subst t; exact ⟨wf_write v hwf (toNat_le_u64Max d), trivial⟩
  | raises u c hs hu e => subst t; exact ⟨hu.wf hwf, trivial⟩
  | applies u i hs hu hi he => exact he.inv (hu.wf hwf) (hu.state.trans hs)

/-- Settles O11: `wf_reset` and `wf_load`; both states are `Executing`. -/
theorem resetMeetsInv : Obligations.ResetMeetsInv :=
  ⟨⟨wf_reset, trivial⟩, fun rom h => ⟨wf_load rom h, trivial⟩⟩

/-- Settles O18: outside `Executing` the step is known; in it, an instruction always moves. -/
theorem everyStateHasAStep : Obligations.EveryStateHasAStep := by
  intro s
  cases hs : s.state with
  | done => exact ⟨_, step_done hs⟩
  | faulted c => exact ⟨_, step_faulted hs⟩
  | hasOutput => exact ⟨_, step_hasOutput hs⟩
  | needsInput d =>
    cases hq : s.iq with
    | nil => exact ⟨_, step_waiting hs hq⟩
    | cons v rest => exact ⟨_, step_delivers hs hq⟩
  | executing =>
    rcases step_executing hs with ⟨-, h⟩ | ⟨-, i, -, h⟩ | ⟨-, e, -, h⟩
    · exact ⟨_, h⟩
    · exact h ▸ exec_moves i _
    · exact ⟨_, h⟩

/-- Settles O19: by execution state; in `Executing`, by the effect of the instruction decoded. -/
theorem transitionsOfTheTable : Obligations.TransitionsOfTheTable := by
  intro s t h
  refine ⟨fun hs => ?_, fun c hs => ?_, fun hs => ?_, fun d hs => ?_, fun hs => ?_⟩
  · rw [step_done hs] at h; cases h; rfl
  · rw [step_faulted hs] at h; cases h; rfl
  · rw [step_hasOutput hs] at h; cases h; rfl
  · cases hq : s.iq with
    | nil => rw [step_waiting hs hq] at h; cases h; exact .inl ⟨rfl, rfl⟩
    | cons v rest => rw [step_delivers hs hq] at h; cases h; exact .inr ⟨by simp, rfl⟩
  · obtain ⟨u, hu, ⟨c, rfl⟩ | ⟨i, hi, he⟩⟩ := step_executing_cases hs h
    · exact .inl ⟨c, rfl⟩
    · refine .inr ⟨i, hi, ?_⟩
      have hux := hu.state.trans hs
      cases i with
      | inp w => obtain ⟨d, hd, -, rfl⟩ := he; exact ⟨d, rfl, hd⟩
      | out a => obtain ⟨v, rfl⟩ := he; rfl
      | hlt => cases he; rfl
      | add a b w | mul a b w | lt a b w | eq a b w => obtain ⟨-, v, rfl⟩ := he; exact hux
      | jt a q | jf a q => obtain ⟨b, target, rfl⟩ := he; simpa using hux
      | arb a => obtain ⟨r, rfl⟩ := he; exact hux

/-- Settles O43: what a step that faults leaves differs from its start by consumed cells and the fault entry alone. -/
theorem faultsArePrecise : Obligations.FaultsArePrecise := by
  intro s t c h ht
  obtain ⟨u, hu, rfl⟩ := (step_stepped h).faulted_consumes ht
  exact ⟨hu.read, hu.rb, hu.iq, hu.oq, hu.len⟩

/-- Settles O46: of all a step can be, only the effect of an ARB changes `rb`. -/
theorem onlyArbChangesBase : Obligations.OnlyArbChangesBase :=
  fun _ _ h hne => (step_stepped h).rb_cases.resolve_left hne

/-- Settles O47: only delivery takes from `IQ`, and only an OUT appends to `OQ`. -/
theorem queuesMoveByOneValue : Obligations.QueuesMoveByOneValue := by
  intro s t h
  refine ⟨(step_stepped h).iq_cases, (step_stepped h).oq_cases.imp (·.2) ?_⟩
  exact fun ⟨hs, ht, v, e⟩ => ⟨v, e, hs, ht⟩

/-- Settles O48: only delivery and the effect of a storing instruction change a cell. -/
theorem onlyStoresChangeCells : Obligations.OnlyStoresChangeCells :=
  fun _ _ x h hne => ((step_stepped h).read_cases x).resolve_left hne

/-- Settles O49: consuming cells, storing and delivering only raise `MEMLEN`. -/
theorem memlenNeverDecreases : Obligations.MemlenNeverDecreases :=
  fun _ _ h => (step_stepped h).len_le

/-- Settles O44: consumed cells and a raise, or one store at the address of the write operand. -/
theorem storingInstrsFrame : Obligations.StoringInstrsFrame := by
  intro a b w i s t hi h
  obtain ⟨u, hu, ⟨c, rfl⟩ | he⟩ := exec_cases h
  · exact ⟨hu.rb, hu.iq, hu.oq, fun x _ => hu.read x, .inr ⟨c, rfl, hu.read⟩⟩
  · have hstore : ∃ v, t = { u with mem := u.mem.write (writeAddress w s) v } := by
      rcases hi with rfl | rfl | rfl | rfl <;> exact he.2
    obtain ⟨v, rfl⟩ := hstore
    exact ⟨hu.rb, hu.iq, hu.oq, fun x hx => (read_write_other _ v hx).trans (hu.read x), .inl hu.state⟩

/-- Settles O45: consumed cells and a raise, or the one effect of an instruction that does not store. -/
theorem otherInstrsFrame : Obligations.OtherInstrsFrame := by
  intro a q i s t hi h
  obtain ⟨u, hu, ⟨c, rfl⟩ | he⟩ := exec_cases h
  · exact ⟨hu.read, hu.iq, fun _ => hu.rb, fun _ => hu.oq, fun _ _ _ => .inr ⟨c, rfl⟩⟩
  · rcases hi with rfl | rfl | rfl | rfl | rfl | rfl
    · obtain ⟨d, -, -, rfl⟩ := he
      exact ⟨hu.read, hu.iq, fun _ => hu.rb, fun _ => hu.oq, fun h => absurd rfl h⟩
    · obtain ⟨v, rfl⟩ := he
      exact ⟨hu.read, hu.iq, fun _ => hu.rb, fun h => absurd rfl h, fun _ h => absurd rfl h⟩
    · obtain ⟨b, target, rfl⟩ := he
      simp [hu.read, hu.iq, hu.rb, hu.oq, hu.state]
    · obtain ⟨b, target, rfl⟩ := he
      simp [hu.read, hu.iq, hu.rb, hu.oq, hu.state]
    · obtain ⟨r, rfl⟩ := he
      exact ⟨hu.read, hu.iq, fun h => absurd rfl h, fun _ => hu.oq, fun _ _ _ => .inl hu.state⟩
    · cases he
      exact ⟨hu.read, hu.iq, fun _ => hu.rb, fun _ => hu.oq, fun _ _ h => absurd rfl h⟩

/-! ## Step and Run -/

/-- R85, R90: what a Step from `s` that reports `r` and leaves `t` has done. -/
def Reported (r : Report) (s t : State) : Prop :=
  match r with
  | .done => t.state = .done ∧ t.oq = s.oq
  | .fault c => t.state = .faulted c ∧ t.oq = s.oq
  | .needsInput => (∃ d, t.state = .needsInput d) ∧ t.iq = [] ∧ t.oq = s.oq
  | .hasOutput => t.state = .hasOutput ∧ ∃ v, t.oq = s.oq ++ [v]

/-- A report is about the state a Step leaves, and about `OQ` at its start. -/
theorem Reported.of_oq_eq {r : Report} (h : Reported r u t) (ho : u.oq = s.oq) : Reported r s t := by
  cases r <;> simpa only [Reported, ho] using h

/-- The state a micro-step leaves is the one its report says. -/
theorem Stepped.reported {r : Report} (h : Stepped s t) (hy : yieldOf s t = some r) : Reported r s t := by
  have hoq : t.state ≠ .hasOutput → t.oq = s.oq := fun hne =>
    h.oq_cases.elim (·.2) fun ⟨_, ht, _⟩ => absurd ht hne
  cases ht : t.state with
  | executing => simp [yieldOf, ht] at hy
  | done => simp only [yieldOf, ht] at hy; cases hy; exact ⟨ht, hoq (by simp [ht])⟩
  | faulted c => simp only [yieldOf, ht] at hy; cases hy; exact ⟨ht, hoq (by simp [ht])⟩
  | hasOutput =>
    simp only [yieldOf, ht] at hy
    cases hy
    exact ⟨ht, (h.oq_cases.resolve_left fun k => k.1 ht).2.2⟩
  | needsInput d =>
    cases hs : s.state with
    | needsInput e =>
      rw [yieldOf_stays_needsInput hs ht] at hy
      cases hy
      refine ⟨⟨d, ht⟩, ?_, hoq (by simp [ht])⟩
      cases h with
      | stays hx ho hq e => subst t; exact hq _ ht
      | delivers d v rest hs hq e => subst t; cases ht
      | resumes hs' | raises _ _ hs' | applies _ _ hs' => rw [hs] at hs'; cases hs'
    | _ => simp [yieldOf, ht, hs] at hy

/-- A micro-step that does not report appends nothing to `OQ`. -/
theorem Stepped.oq_eq_of_no_report (h : Stepped s t) (hy : yieldOf s t = none) : t.oq = s.oq :=
  h.oq_cases.elim (·.2) fun ⟨_, ht, _⟩ => by rw [yieldOf_hasOutput ht] at hy; cases hy

theorem stepTransaction_reported {fuel : Nat} {r : Report} (h : stepTransaction step fuel s = .reported r t) :
    Reported r s t := by
  induction fuel generalizing s with
  | zero => cases h
  | succ fuel ih =>
    obtain ⟨u, hu⟩ := everyStateHasAStep s
    cases hy : yieldOf s u with
    | none => exact (ih (stepTransaction_continues hu hy fuel ▸ h)).of_oq_eq ((step_stepped hu).oq_eq_of_no_report hy)
    | some q =>
      rw [stepTransaction_yields hu hy] at h
      cases h
      exact (step_stepped hu).reported hy

/-- Settles O24: by induction on the fuel; only the last micro-step reports, and the ones before it append nothing. -/
theorem reportSaysTheState : Obligations.ReportSaysTheState :=
  fun _ _ _ _ h => stepTransaction_reported h

/-- Settles O25: by induction on the smaller fuel; both runs make the same first micro-step. -/
theorem moreFuelSameAnswer : Obligations.MoreFuelSameAnswer := by
  intro n
  induction n with
  | zero => exact fun _ _ _ h => absurd rfl h
  | succ n ih =>
    intro m s hle h
    obtain ⟨m, rfl⟩ : ∃ k, m = k + 1 := ⟨m - 1, by omega⟩
    obtain ⟨t, ht⟩ := everyStateHasAStep s
    cases hy : yieldOf s t with
    | some r => rw [stepTransaction_yields ht hy, stepTransaction_yields ht hy]
    | none =>
      rw [stepTransaction_continues ht hy] at h
      rw [stepTransaction_continues ht hy, stepTransaction_continues ht hy, ih m t (by omega) h]

/-- How a Run that ends so has left the core. -/
def RunResult.Says : RunResult → Prop
  | .ok t => t.state = .done
  | .error .runNeedsInput t => (∃ d, t.state = .needsInput d) ∧ t.iq = []
  | .error (.fault c) t => t.state = .faulted c
  | .noAnswer => True
  | .held _ _ => True
  | .refused _ => True

theorem runTransaction_says (fuel steps : Nat) (s : State) : (runTransaction step fuel steps s).Says := by
  induction steps generalizing s with
  | zero => trivial
  | succ steps ih =>
    cases h : stepTransaction step fuel s with
    | reported r t =>
      have hr := stepTransaction_reported h
      cases r with
      | done => simpa only [runTransaction, h, RunResult.Says] using hr.1
      | needsInput => simpa only [runTransaction, h] using ⟨hr.1, hr.2.1⟩
      | fault c => simpa only [runTransaction, h, RunResult.Says] using hr.1
      | hasOutput => simpa only [runTransaction, h] using ih t
    | noAnswer => simp only [runTransaction, h, RunResult.Says]
    | held r t => simp only [runTransaction, h, RunResult.Says]
    | refused r => simp only [runTransaction, h, RunResult.Says]

/-- Settles O26: Run goes by the report of its Step, and that report says the state (O24). -/
theorem runEndsAsTheCoreDoes : Obligations.RunEndsAsTheCoreDoes := by
  refine ⟨fun fuel steps s t r h => ?_, fun fuel steps s t => ?_⟩
  · cases r <;> simp only [runTransaction, h]
  · have hsays := runTransaction_says fuel steps s
    exact ⟨fun h => by rwa [h] at hsays, fun h => by rwa [h] at hsays, fun c h => by rwa [h] at hsays⟩

/-- Settles O21: a step in `Faulted` changes nothing, and reports the fault. -/
theorem faultedStaysFaulted : Obligations.FaultedStaysFaulted :=
  fun _ _ h => ⟨step_faulted h, stepTransaction_yields (step_faulted h) (by simp only [yieldOf, h])⟩

end Sys2Proof.Machine
end

section
/-!
PROOFS. The family `60_exceptions.md` and the primitives: the step of a decoded instruction (R81), the words that are no
instruction (R172, R173), HLT (R145), the top of the address space (R179), reads and fetches (R32, R53), and the first
fault of an instruction (R180).
-/

namespace Sys2Proof.Machine

open Sys2Proof

variable {s t u : State} {p : Params}

/-! ## The step by what stands at `pc` -/

theorem step_of_decoded {i : Instr} (hs : s.state = .executing) (hr : PcRoom 1 s) (hi : decodeAt s = .ok i) :
    step s = exec i (afterCell s) := by
  rcases step_executing hs with ⟨h, -⟩ | ⟨-, j, hj, h⟩ | ⟨-, e, he, -⟩
  · exact absurd hr h
  · rw [hi] at hj
    cases hj
    exact h
  · rw [hi] at he
    cases he

theorem step_of_error {e : DecodeError} (hs : s.state = .executing) (hr : PcRoom 1 s) (he : decodeAt s = .error e) :
    step s = .next ((afterCell s).raise (causeOfDecodeError e)) := by
  rcases step_executing hs with ⟨h, -⟩ | ⟨-, j, hj, -⟩ | ⟨-, x, hx, h⟩
  · exact absurd hr h
  · rw [he] at hj
    cases hj
  · rw [he] at hx
    cases hx
    exact h

/-- R52, R172: a negative word is no instruction. -/
theorem decodeAt_negative (h : (s.mem.read s.pc.toNat).toInt < 0) : decodeAt s = .error .negativeWord := by
  rw [decodeAt, decodeWords, selectOpcode_negative h]

/-- R65, R173: a word whose value modulo 100 is 0 or in 10..98 is no instruction. -/
theorem decodeAt_unrecognized (h0 : 0 ≤ (s.mem.read s.pc.toNat).toInt)
    (h : (s.mem.read s.pc.toNat).toInt % 100 = 0 ∨
      10 ≤ (s.mem.read s.pc.toNat).toInt % 100 ∧ (s.mem.read s.pc.toNat).toInt % 100 ≤ 98) :
    ∃ n, decodeAt s = .error (.unrecognizedOpcode n) := by
  rw [toInt_eq_toNat h0] at h
  have hnone : ∀ o : Opcode, o.code ≠ (s.mem.read s.pc.toNat).toNat % opcodeRadix := fun o => by
    rw [opcodeRadix]
    cases o <;> simp only [Opcode.code] <;> omega
  exact ⟨_, by rw [decodeAt, decodeWords, selectOpcode_none h0 hnone]⟩

/-- R56, R145: every word that ends in 99 is HLT. -/
theorem decodeAt_hlt (h0 : 0 ≤ (s.mem.read s.pc.toNat).toInt) (h : (s.mem.read s.pc.toNat).toInt % 100 = 99) :
    decodeAt s = .ok .hlt := by
  rw [toInt_eq_toNat h0] at h
  have hrow : selectOpcode (s.mem.read s.pc.toNat) = .ok .hlt :=
    selectOpcode_row h0 (by simp only [Opcode.code, opcodeRadix]; omega)
  exact decodeWords_eq_ok.mpr ⟨.hlt, hrow, rfl⟩

/-- Settles O13: `step_of_decoded`. -/
theorem stepRunsDecodedInstr : Obligations.StepRunsDecodedInstr :=
  fun _ _ hs hr hi => step_of_decoded hs hr hi

/-- Settles O14: such a word selects no row. -/
theorem unrecognizedOpcodeFaults : Obligations.UnrecognizedOpcodeFaults := by
  intro s hs hr h0 h
  obtain ⟨n, hn⟩ := decodeAt_unrecognized h0 h
  exact step_of_error hs hr hn

/-- Settles O15: the sign is looked at first; the word 0 is not negative and ends in 00. -/
theorem negativeWordFaults : Obligations.NegativeWordFaults := by
  refine fun s hs hr => ⟨fun h => step_of_error hs hr (decodeAt_negative h), fun h => ?_⟩
  refine unrecognizedOpcodeFaults s hs hr ?_ (.inl ?_) <;> rw [h] <;> rfl

/-- Settles O35: HLT sets STATE alone, and ending in `Done` reports. -/
theorem hltEndsTheRun : Obligations.HltEndsTheRun := by
  refine ⟨fun _ => rfl, fun s hs hr h0 h => ?_⟩
  have hstep : step s = .next { afterCell s with state := .done } := step_of_decoded hs hr (decodeAt_hlt h0 h)
  exact ⟨hstep, stepTransaction_yields hstep (yieldOf_eq_done.mpr rfl)⟩

/-! ## Consuming a cell -/

/-- R13, R179: what a fetch that raises at the top of the address space makes of every kind of operand. -/
theorem operands_top (hp : p.memCapacity = none) (hf : p.overflow = .fault) (h : ¬ PcRoom 1 s) {o : Operand} {m : Mode}
    (hm : o.mode = .known m) :
    signedOperand p o s = .raised .pcOverflow (stuckAtTop s) ∧
    unsignedOperand p o s = .raised .pcOverflow (stuckAtTop s) ∧
    writeOperand p o s = .raised .pcOverflow (stuckAtTop s) := by
  have hc : consumeOperand p o s = .raised .pcOverflow (stuckAtTop s) := by
    simp only [consumeOperand, hm, nextMode, andThen_ok, fetchWord_top hp hf h, andThen_raised]
  simp only [unsignedOperand, signedOperand, writeOperand, hc, andThen_raised, and_self]

/-- Settles O16: every operand of every instruction is consumed by the one fetch, which raises or wraps at the top. -/
theorem pcOverflowAtTheTop : Obligations.PcOverflowAtTheTop := by
  intro p s hp htop
  have hroom : ¬ PcRoom 1 s := by simp [PcRoom, htop]
  have hpc : s.pc = 18446744073709551615 := BitVec.eq_of_toNat_eq htop
  refine ⟨fun hf => ⟨fetchWord_top hp hf hroom, fun o m hm => operands_top hp hf hroom hm, fun hs => ?_⟩, fun hw => ?_⟩
  · simp only [stepUnder, microStepWith, hs, executeOne, fetchWord_top hp hf hroom]
  · rw [fetchWord_wrap hp hw, afterCell, htop, hpc]
    rfl

/-- Settles O8: the closed form of a read, and the laws of growth. -/
theorem readOnlyGrowsMemory : Obligations.ReadOnlyGrowsMemory := by
  intro a s
  refine ⟨_, memRead_unbounded rfl a.toNat s, ?_, fun _ => rfl, read_past_len, rfl⟩
  simp only [len_touch]
  split <;> omega

/-- Settles O9: a fetch gives the cell at `pc`, which still reads as stored, or raises at the top. -/
theorem storeIsSeenByFetch : Obligations.StoreIsSeenByFetch := by
  intro p a v s t u hp hwrite hread hpc
  subst hpc
  rw [memWrite_unbounded hp] at hwrite
  cases hwrite
  rw [read_write_same] at hread
  refine ⟨fun h => ?_, fun hr hf => fetchWord_top hp hf hr⟩
  rw [← hread]
  exact h.elim (fetchWord_room hp) fun hw => fetchWord_wrap hp hw u

/-! ## One operand: its faults and its value -/

theorem checkPointer_negative {v : Cell} (h : v.toInt < 0) (s : State) :
    checkPointer v s = .raised .negativePointer s := by
  rw [checkPointer, if_pos h]

theorem checkTarget_negative {v : Cell} (h : v.toInt < 0) (s : State) :
    checkTarget v s = .raised .negativeJumpTarget s := by
  rw [checkTarget, if_pos h]

theorem checkTarget_nonneg {v : Cell} (h : 0 ≤ v.toInt) (s : State) : checkTarget v s = .ok v s := by
  rw [checkTarget, if_neg (not_lt.mpr h)]

/-- Settles O41: an unsigned operand is the signed one followed by the check of its sign. -/
theorem unsignedOperandChecksValue : Obligations.UnsignedOperandChecksValue := by
  refine fun p o s => ⟨fun v t h hv => ?_, fun v t h hv => ⟨?_, toNat_le_i64Max hv⟩, fun c t h => ?_⟩
  · rw [unsignedOperand, h, andThen_ok, checkTarget_negative hv]
  · rw [unsignedOperand, h, andThen_ok, checkTarget_nonneg hv]
  · rw [unsignedOperand, h, andThen_raised]

theorem addressFault_eq_some {v : Int} {c : Cause} : addressFault v = some c ↔
    (¬ InI64 v ∧ c = .arithmeticOverflow) ∨ (InI64 v ∧ v < 0 ∧ c = .negativePointer) := by
  rw [addressFault]
  by_cases hin : InI64 v
  · rw [if_pos hin]
    by_cases hneg : v < 0
    · rw [if_pos hneg]
      exact ⟨fun h => .inr ⟨hin, hneg, by cases h; rfl⟩, fun h => h.elim (absurd hin ·.1) fun ⟨_, _, e⟩ => e ▸ rfl⟩
    · rw [if_neg hneg]
      exact ⟨nofun, fun h => h.elim (absurd hin ·.1) (absurd ·.2.1 hneg)⟩
  · rw [if_neg hin]
    exact ⟨fun h => .inl ⟨hin, by cases h; rfl⟩, fun h => h.elim (fun ⟨_, e⟩ => e ▸ rfl) (absurd ·.1 hin)⟩

/-- An address without a fault is one a memory operand may name. -/
theorem addressFault_eq_none {v : Int} (h : addressFault v = none) : 0 ≤ v ∧ v ≤ i64Max := by
  have hin : InI64 v := by_contra fun hout => by rw [addressFault_eq_some.mpr (.inl ⟨hout, rfl⟩)] at h; cases h
  have h0 : ¬ v < 0 := fun hneg => by rw [addressFault_eq_some.mpr (.inr ⟨hin, hneg, rfl⟩)] at h; cases h
  exact ⟨not_lt.mp h0, hin.2⟩

/-- R62, R175, R178: an operand whose address is faulty raises that fault. -/
theorem addressByMode_fault (hf : p.overflow = .fault) {m : Mode} {raw : Cell} {c : Cause}
    (h : addressFault (exactAddress m raw s.rb) = some c) : addressByMode p m raw s = .raised c s := by
  cases m with
  | immediate | position =>
    rcases addressFault_eq_some.mp h with ⟨hout, -⟩ | ⟨-, hneg, rfl⟩
    · exact absurd (inI64_toInt raw) hout
    · exact checkPointer_negative hneg s
  | relative =>
    rcases addressFault_eq_some.mp h with ⟨hout, rfl⟩ | ⟨hin, hneg, rfl⟩
    · simp only [exactAddress] at hout
      rw [addressByMode, relativeSum, fit64_fault hf hout, andThen_raised]
    · simp only [exactAddress] at hin hneg
      rw [addressByMode, relativeSum, fit64_fits p hin, andThen_ok,
        checkPointer_negative (by rwa [toInt_cellOfInt hin])]

/-- R60: a memory operand resolves its address as a write operand does, and then reads there. -/
theorem readByMode_eq (p : Params) {m : Mode} (hm : m ≠ .immediate) (raw : Cell) (s : State) :
    readByMode p m raw s = (addressByMode p m raw s).andThen fun a s => memRead p a.toNat s := by
  cases m with
  | immediate => exact absurd rfl hm
  | position => rfl
  | relative => rw [addressByMode, andThen_assoc]; rfl

theorem readByMode_fault (hf : p.overflow = .fault) {m : Mode} (hm : m ≠ .immediate) {raw : Cell} {c : Cause}
    (h : addressFault (exactAddress m raw s.rb) = some c) : readByMode p m raw s = .raised c s := by
  rw [readByMode_eq p hm, addressByMode_fault hf h, andThen_raised]

/-- R60, R62: with its cell consumed, an operand is resolved by its mode. -/
theorem signedOperand_room (hp : p.memCapacity = none) {o : Operand} {m : Mode} (hm : o.mode = .known m) (hr : PcRoom 1 s) :
    signedOperand p o s = readByMode p m o.raw (afterCell s) := by
  rw [signedOperand, consumeOperand_room hp hm hr, andThen_ok]

theorem writeOperand_room (hp : p.memCapacity = none) {o : Operand} {m : Mode} (hm : o.mode = .known m) (hr : PcRoom 1 s) :
    writeOperand p o s = addressByMode p m o.raw (afterCell s) := by
  rw [writeOperand, consumeOperand_room hp hm hr, andThen_ok]

/-- Settles O40: an exact address that is in the range of a cell and negative is a NegativePointer; the word's sign is
checked before its opcode; and an index is a natural number. -/
theorem negativeAddressesAreCaught : Obligations.NegativeAddressesAreCaught := by
  refine ⟨fun o m s hm hr hmin hneg => ?_, fun s hs hr h => (negativeWordFaults s hs hr).1 h, fun s => Int.natCast_nonneg _⟩
  have hfault : addressFault (exactAddress m o.raw (afterCell s).rb) = some .negativePointer :=
    addressFault_eq_some.mpr (.inr ⟨⟨hmin, Int.le_trans (Int.le_of_lt hneg) (by decide)⟩, hneg, rfl⟩)
  refine ⟨fun hne => ?_, ?_⟩
  · rw [signedOperand_room rfl hm hr, readByMode_fault rfl hne hfault]
  · rw [writeOperand_room rfl hm hr, addressByMode_fault rfl hfault]

/-- The wrapped sum of a Relative operand is congruent to the exact one modulo 2^64. -/
theorem dvd_toInt_cellOfInt_sub (v : Int) : (2 : Int) ^ 64 ∣ (cellOfInt v).toInt - v := by
  rw [BitVec.toInt_ofInt]
  exact Int.ModEq.dvd (Int.bmod_emod (x := v) (m := 2 ^ 64)).symm

theorem addressByMode_relative_wrap (hw : p.overflow = .wrap) (raw : Cell) (s : State) :
    addressByMode p .relative raw s = checkPointer (cellOfInt (raw.toInt + s.rb.toInt)) s := by
  rw [addressByMode, relativeSum, fit64_wrap hw, andThen_ok]

/-- Settles O38: in `wrap` mode the sum always fits, and its sign is checked on the wrapped value. -/
theorem relativeSumWraps : Obligations.RelativeSumWraps := by
  intro p o s hp hw hm hr
  have haddr := addressByMode_relative_wrap hw o.raw (afterCell s)
  refine ⟨cellOfInt (o.raw.toInt + s.rb.toInt), dvd_toInt_cellOfInt_sub _, fun hneg => ?_, fun h0 => ?_⟩
  all_goals rw [signedOperand_room hp hm hr, writeOperand_room hp hm hr, readByMode_eq p (by decide), haddr, afterCell_rb]
  · rw [checkPointer_negative hneg, andThen_raised]
    exact ⟨rfl, rfl⟩
  · rw [checkPointer_nonneg h0, andThen_ok, memRead_unbounded hp, toNat_of_toInt_nonneg h0]
    exact ⟨rfl, rfl⟩

/-! ## The first fault in reading order -/

/-- R59: an operand resolved as its kind asks. -/
def resolveKind (p : Params) (k : OperandKind) (o : Operand) (s : State) : Res Cell :=
  match k with
  | .signed => signedOperand p o s
  | .unsigned => unsignedOperand p o s
  | .write => writeOperand p o s

/-- A read operand with room for its cell raises the fault of its address, or resolves to its value. -/
theorem signedOperand_cases {o : Operand} {m : Mode} (hm : o.mode = .known m) (hr : PcRoom 1 s) :
    (∃ c, m ≠ .immediate ∧ addressFault (exactAddress m o.raw s.rb) = some c ∧
      signedOperand params o s = .raised c (afterCell s)) ∨
    ((m = .immediate ∨ addressFault (exactAddress m o.raw s.rb) = none) ∧
      signedOperand params o s = .ok (readValue o s) (afterRead o s)) := by
  by_cases himm : m = .immediate
  · have hread : Readable o s := by simp only [Readable, hm, himm]
    exact .inr ⟨.inl himm, signedOperand_readable rfl hread hr⟩
  · cases hc : addressFault (exactAddress m o.raw s.rb) with
    | some c => exact .inl ⟨c, himm, rfl, 
        (signedOperand_room rfl hm hr).trans (readByMode_fault (s := afterCell s) rfl himm hc)⟩
    | none =>
      have hread : Readable o s := by
        cases m with
        | immediate => exact absurd rfl himm
        | position | relative => simpa only [Readable, hm] using addressFault_eq_none hc
      exact .inr ⟨.inr rfl, signedOperand_readable rfl hread hr⟩

/-- R180: the operand raises the fault that `operandFault` names, in the state it names, or resolves without one. -/
def Settled (k : OperandKind) (o : Operand) (s : State) : Prop :=
  (∃ c t, operandFault k o s = some (c, t) ∧ resolveKind params k o s = .raised c t) ∨
    (operandFault k o s = none ∧ ∃ v, resolveKind params k o s = .ok v (afterOperand k o s))

section Room
variable {o : Operand} {m : Mode} (hm : o.mode = .known m) (hr : PcRoom 1 s)
include hm hr

theorem settled_signed : Settled .signed o s := by
  rcases signedOperand_cases hm hr with ⟨c, hne, hc, e⟩ | ⟨hok, e⟩
  · exact .inl ⟨c, afterCell s, by simp [operandFault, hm, hr, hne, hc], e⟩
  · exact .inr ⟨by rcases hok with h | h <;> simp [operandFault, hm, hr, h], readValue o s, e⟩

theorem settled_unsigned : Settled .unsigned o s := by
  rcases signedOperand_cases hm hr with ⟨c, hne, hc, e⟩ | ⟨hok, e⟩
  · exact .inl ⟨c, afterCell s, by simp [operandFault, hm, hr, hne, hc],
      by rw [resolveKind, unsignedOperand, e, andThen_raised]⟩
  · by_cases hneg : (readValue o s).toInt < 0
    · refine .inl ⟨.negativeJumpTarget, afterRead o s, ?_, ?_⟩
      · rcases hok with h | h <;> simp [operandFault, hm, hr, h, hneg]
      · rw [resolveKind, unsignedOperand, e, andThen_ok, checkTarget_negative hneg]
    · refine .inr ⟨?_, readValue o s, ?_⟩
      · rcases hok with h | h <;> simp [operandFault, hm, hr, h, hneg]
      · rw [resolveKind, unsignedOperand, e, andThen_ok, checkTarget_nonneg (not_lt.mp hneg)]
        rfl

theorem settled_write : Settled .write o s := by
  cases hc : addressFault (exactAddress m o.raw s.rb) with
  | some c =>
    exact .inl ⟨c, afterCell s, by simp [operandFault, hm, hr, hc],
      (writeOperand_room rfl hm hr).trans (addressByMode_fault rfl hc)⟩
  | none =>
    have hw : Writable o s := by simpa only [Writable, hm] using addressFault_eq_none hc
    obtain ⟨d, hd, -⟩ := writeOperand_writable (p := params) rfl hw hr
    exact .inr ⟨by simp [operandFault, hm, hr, hc], d, hd⟩

end Room

theorem settled (k : OperandKind) (o : Operand) (s : State) : Settled k o s := by
  cases hm : o.mode with
  | unrecognized d =>
    refine .inl ⟨.unrecognizedAddressingMode, s, by simp only [operandFault, hm], ?_⟩
    cases k <;> simp [resolveKind, unsignedOperand, signedOperand, writeOperand, consumeOperand, hm, nextMode]
  | known m =>
    by_cases hr : PcRoom 1 s
    · cases k with
      | signed => exact settled_signed hm hr
      | unsigned => exact settled_unsigned hm hr
      | write => exact settled_write hm hr
    · obtain ⟨hs, hu, hw⟩ := operands_top (p := params) rfl rfl hr hm
      refine .inl ⟨.pcOverflow, stuckAtTop s, by simp only [operandFault, hm, if_neg hr], ?_⟩
      cases k with
      | signed => exact hs
      | unsigned => exact hu
      | write => exact hw

/-- R180: the first fault of a list of operands is its first operand's, or the rest's once that one is resolved. -/
theorem firstFault_andThen {α : Type} {k : OperandKind} {o : Operand} {rest : List (OperandKind × Operand)} {c : Cause}
    {f : Cell → State → Res α} (h : firstFault ((k, o) :: rest) s = some (c, t))
    (hf : ∀ v, firstFault rest (afterOperand k o s) = some (c, t) → f v (afterOperand k o s) = .raised c t) :
    (resolveKind params k o s).andThen f = .raised c t := by
  rw [firstFault] at h
  rcases settled k o s with ⟨c', t', hfault, e⟩ | ⟨hnone, v, e⟩
  · rw [hfault] at h
    cases h
    rw [e, andThen_raised]
  · rw [hnone] at h
    rw [e, andThen_ok, hf v h]

theorem resolveF3_fault {a b w : Operand} {c : Cause}
    (h : firstFault [(.signed, a), (.signed, b), (.write, w)] s = some (c, t)) : resolveF3 params a b w s = .raised c t :=
  firstFault_andThen (k := .signed) h fun _ h =>
    firstFault_andThen (k := .signed) h fun _ h => firstFault_andThen (k := .write) h fun _ h => nomatch h

theorem resolveF2J_fault {a q : Operand} {c : Cause} (h : firstFault [(.signed, a), (.unsigned, q)] s = some (c, t)) :
    resolveF2J params a q s = .raised c t :=
  firstFault_andThen (k := .signed) h fun _ h => firstFault_andThen (k := .unsigned) h fun _ h => nomatch h

theorem signedOperand_fault {a : Operand} {c : Cause} (h : firstFault [(.signed, a)] s = some (c, t)) {α : Type}
    (f : Cell → State → Res α) : (signedOperand params a s).andThen f = .raised c t :=
  firstFault_andThen (k := .signed) h fun _ h => nomatch h

theorem writeOperand_fault {w : Operand} {c : Cause} (h : firstFault [(.write, w)] s = some (c, t)) {α : Type}
    (f : Addr → State → Res α) : (writeOperand params w s).andThen f = .raised c t :=
  firstFault_andThen (k := .write) h fun _ h => nomatch h

/-- The instruction's effect is not reached where its operands raise. -/
theorem outcome_of_raised {α : Type} {r : Res α} {c : Cause} (h : r = .raised c t) (f : α → State → Res Unit) :
    (r.andThen f).outcome = .next (t.raise c) := by
  rw [h, andThen_raised, outcome_raised]

/-- Settles O39: an instruction resolves its operands in reading order before its effect; each raises the fault named or
leaves the state in which the next is resolved. -/
theorem firstFaultIsTaken : Obligations.FirstFaultIsTaken := by
  intro i s t c h
  cases i with
  | add a b w | mul a b w | lt a b w | eq a b w => exact outcome_of_raised (resolveF3_fault h) _
  | jt a q | jf a q => exact outcome_of_raised (resolveF2J_fault h) _
  | inp w => exact congrArg Res.outcome (writeOperand_fault h _)
  | out a | arb a => exact congrArg Res.outcome (signedOperand_fault h _)
  | hlt => cases h

end Sys2Proof.Machine
end

section
/-!
PROOFS. What each instruction does where its operands resolve: the families `41_arithmetic.md` to `46_halt.md`, with
`OVERFLOW_MODE` fault (R100) and wrap.
-/

namespace Sys2Proof.Machine

open Sys2Proof

variable {s : State} {p : Params}

/-! ## Effects on resolved operands -/

/-- The state of an F3 instruction's effect, with the value stored at the address of `w`. -/
abbrev storedF3 (a b w : Operand) (s : State) (v : Cell) : State :=
  { afterF3 a b s with mem := (afterF3 a b s).mem.write (writeAddress w s) v }

/-- An F3 instruction that writes `g` of its two values stores it at the address of `w`. -/
theorem store_ready (hp : p.memCapacity = none) {a b w : Operand} (h : ReadyF3 a b w s) (g : Cell → Cell → Cell) :
    ((resolveF3 p a b w s).andThen fun o s => memWrite p o.2.2.toNat (g o.1 o.2.1) s).outcome =
      .next (storedF3 a b w s (g (readValue a s) (readValue b s))) := by
  obtain ⟨d, hd, e⟩ := resolveF3_ready hp h
  rw [hd, andThen_ok, memWrite_unbounded hp, e, outcome_ok]

/-- An F3 instruction whose exact result passes `fit64` stores its cell. -/
theorem storeExact_ready (hp : p.memCapacity = none) {a b w : Operand} (h : ReadyF3 a b w s) {g : Int → Int → Int} {v : Int}
    (hg : g (readValue a s).toInt (readValue b s).toInt = v) (hv : ∀ t, fit64 p v t = .ok (cellOfInt v) t) :
    ((resolveF3 p a b w s).andThen fun o s => storeExact p o.2.2 (g o.1.toInt o.2.1.toInt) s).outcome =
      .next (storedF3 a b w s (cellOfInt v)) := by
  obtain ⟨d, hd, e⟩ := resolveF3_ready hp h
  rw [hd, andThen_ok, storeExact, hg, hv, andThen_ok, memWrite_unbounded hp, e, outcome_ok]

/-- An F3 instruction whose exact result does not fit raises, its operands resolved. -/
theorem storeExact_overflow (hp : p.memCapacity = none) (hf : p.overflow = .fault) {a b w : Operand} (h : ReadyF3 a b w s)
    {g : Int → Int → Int} (hg : ¬ InI64 (g (readValue a s).toInt (readValue b s).toInt)) :
    ((resolveF3 p a b w s).andThen fun o s => storeExact p o.2.2 (g o.1.toInt o.2.1.toInt) s).outcome =
      .next ((afterF3 a b s).raise .arithmeticOverflow) := by
  obtain ⟨d, hd, -⟩ := resolveF3_ready hp h
  rw [hd, andThen_ok, storeExact, fit64_fault hf hg, andThen_raised, outcome_raised]

theorem resolveF1R_ready (hp : p.memCapacity = none) {a : Operand} (h : ReadyF1R a s) :
    resolveF1R p a s = .ok (readValue a s) (afterRead a s) :=
  signedOperand_readable hp h.1 h.2

/-- ARB where the sum passes `fit64`. -/
theorem arb_ready (hp : p.memCapacity = none) {a : Operand} (h : ReadyF1R a s) {v : Int}
    (hg : s.rb.toInt + (readValue a s).toInt = v) (hv : ∀ t, fit64 p v t = .ok (cellOfInt v) t) :
    arbUnder p a s = .next { afterRead a s with rb := cellOfInt v } := by
  rw [arbUnder, resolveF1R_ready hp h, andThen_ok, afterRead_rb, hg, hv, andThen_ok, outcome_ok]

/-! ## ADD, MUL, LT and EQ -/

/-- Settles O27: the exact sum passes `fit64` and its cell is stored. -/
theorem addStoresSum : Obligations.AddStoresSum :=
  fun _ _ _ _ h hin => ⟨_, toInt_cellOfInt hin, storeExact_ready (g := (· + ·)) rfl h rfl (fit64_fits params hin)⟩

/-- Settles O28: the exact product passes `fit64` and its cell is stored. -/
theorem mulStoresProduct : Obligations.MulStoresProduct :=
  fun _ _ _ _ h hin => ⟨_, toInt_cellOfInt hin, storeExact_ready (g := (· * ·)) rfl h rfl (fit64_fits params hin)⟩

theorem relationCell_eq {holds : Bool} {P : Prop} [Decidable P] (h : holds = true ↔ P) :
    relationCell holds = if P then 1 else 0 := by
  simp only [relationCell, h]

/-- Settles O29: LT stores the cell of its relation, which compares signed values. -/
theorem ltStoresRelation : Obligations.LtStoresRelation := by
  intro a b w s h
  rw [← relationCell_eq (lessThan_iff _ _)]
  exact store_ready rfl h fun x y => relationCell (lessThan x y)

/-- Settles O30: EQ stores the cell of its relation, which two cells meet exactly where their values are equal. -/
theorem eqStoresRelation : Obligations.EqStoresRelation := by
  intro a b w s h
  rw [← relationCell_eq (equalTo_iff _ _)]
  exact store_ready rfl h fun x y => relationCell (equalTo x y)

/-! ## ARB, IN, OUT and the jumps -/

/-- Settles O31: the exact sum passes `fit64`; the operand was resolved with the old base. -/
theorem arbAddsToBase : Obligations.ArbAddsToBase :=
  fun _ _ h hin => ⟨_, toInt_cellOfInt hin, arb_ready rfl h rfl (fit64_fits params hin)⟩

/-- Settles O32: the write operand resolves to its address, and the core waits there. -/
theorem inWaitsAtItsAddress : Obligations.InWaitsAtItsAddress := by
  intro w s h
  obtain ⟨d, hd, e⟩ := writeOperand_writable (p := params) rfl h.1 h.2
  exact ⟨d, e, by rw [exec, execInp, inpUnder, resolveF1W, hd, andThen_ok, outcome_ok, awaitInput]⟩

/-- Settles O33: the value goes to the back of an unbounded `OQ`, which resolving left alone. -/
theorem outAppendsValue : Obligations.OutAppendsValue := by
  intro a s h
  rw [exec, execOut, outUnder, resolveF1R_ready rfl h, andThen_ok, outEnqueue_unbounded rfl, andThen_ok, outcome_ok,
    afterRead_oq]

/-- Settles O34: both operands resolve, and the condition is whether the first value is zero. -/
theorem jumpsOverwritePc : Obligations.JumpsOverwritePc := by
  intro a t s h
  have hcond : isTrue (readValue a s) = true ↔ (readValue a s).toInt ≠ 0 := isTrue_iff _
  refine ⟨?_, ?_⟩
  · rw [exec, execJt, jtUnder, resolveF2J_ready rfl h, andThen_ok, outcome_ok]
    simp only [jumpIf, hcond]
  · rw [exec, execJf, jfUnder, resolveF2J_ready rfl h, andThen_ok, outcome_ok]
    simp only [jumpIf, Bool.not_eq_true', ← Bool.not_eq_true, hcond, not_not]

/-- R124: the target of a jump is checked whether or not it is taken. -/
theorem resolveF2J_negative (hp : p.memCapacity = none) {a t : Operand} (ha : Readable a s) (ht : Readable t s)
    (hr : PcRoom 2 s) (hneg : (readValue t s).toInt < 0) :
    resolveF2J p a t s = .raised .negativeJumpTarget (afterF2J a t s) := by
  rw [resolveF2J, signedOperand_readable hp ha (pcRoom_one hr), andThen_ok, unsignedOperand,
    signedOperand_readable hp (by simpa using ht) (pcRoom_afterRead hr), andThen_ok, readValue_afterRead,
    checkTarget_negative hneg, andThen_raised]
  rfl

/-- Settles O42: the jump raises in resolving its operands, before its condition is looked at. -/
theorem untakenJumpChecksTarget : Obligations.UntakenJumpChecksTarget := by
  intro a t s ha ht hr hneg
  have h := resolveF2J_negative (p := params) rfl ha ht hr hneg
  exact ⟨outcome_of_raised h _, outcome_of_raised h _⟩

/-! ## Overflow -/

/-- Settles O36: in `fault` mode `fit64` raises once the operands are resolved. -/
theorem overflowRaises : Obligations.OverflowRaises := by
  refine ⟨fun a b w s h => ⟨fun hout => ?_, fun hout => ?_⟩, fun a s h hout => ?_⟩
  · exact storeExact_overflow (g := (· + ·)) rfl rfl h hout
  · exact storeExact_overflow (g := (· * ·)) rfl rfl h hout
  · rw [exec, execArb, arbUnder, resolveF1R_ready rfl h, andThen_ok, afterRead_rb, fit64_fault rfl hout, andThen_raised,
      outcome_raised]

/-- Settles O37: in `wrap` mode `fit64` gives the cell congruent to the exact result. -/
theorem overflowWraps : Obligations.OverflowWraps := by
  rintro p ⟨hp, -, -⟩ hw
  refine ⟨fun a b w s h => ⟨⟨_, dvd_toInt_cellOfInt_sub _, ?_⟩, _, dvd_toInt_cellOfInt_sub _, ?_⟩,
    fun a s h => ⟨_, dvd_toInt_cellOfInt_sub _, ?_⟩⟩
  · exact storeExact_ready (g := (· + ·)) hp h rfl (fit64_wrap hw _)
  · exact storeExact_ready (g := (· * ·)) hp h rfl (fit64_wrap hw _)
  · exact arb_ready hp h rfl (fit64_wrap hw _)

end Sys2Proof.Machine
end

section
/-!
PROOFS. The step is the spec's pseudocode (`30_encoding.md` R71, `40_execution_cycle.md` R82, R84): an operand read from
the remaining digits and the cell at `pc` is the operand that the decoder made of them.
-/

namespace Sys2Proof.Machine

open Sys2Proof

variable {α β : Type} {s t : State} {p : Params}

/-! ## Cells in the order they are consumed -/

/-- What follows a procedure need only agree where the procedure can leave it. -/
theorem andThen_congr {r : Res α} {f g : α → State → Res β} (h : ∀ v t, r = .ok v t → f v t = g v t) :
    r.andThen f = r.andThen g := by
  cases r with
  | ok v t => exact h v t rfl
  | raised c t => rfl
  | stuck r => rfl

/-- What a procedure that only checks, only reads, or only computes leaves where it gives a value. -/
theorem memRead_ok {a : Nat} {v : Cell} (h : memRead p a s = .ok v t) :
    v = s.mem.read a ∧ t = { s with mem := s.mem.touch a } := by
  simp only [memRead] at h
  split at h
  · cases h; exact ⟨rfl, rfl⟩
  · cases h

theorem fit64_ok {n : Int} {v : Cell} (h : fit64 p n s = .ok v t) : v = cellOfInt n ∧ t = s := by
  simp only [fit64] at h
  split at h
  · cases h; exact ⟨rfl, rfl⟩
  · split at h <;> cases h
    exact ⟨rfl, rfl⟩

theorem fitPc_ok {n : Nat} {v : Addr} (h : fitPc p n s = .ok v t) : v = BitVec.ofNat 64 n ∧ t = s := by
  simp only [fitPc] at h
  split at h
  · cases h; exact ⟨rfl, rfl⟩
  · split at h <;> cases h
    exact ⟨rfl, rfl⟩

theorem nextMode_ok {f : ModeField} {m : Mode} (h : nextMode f s = .ok m t) : f = .known m ∧ t = s := by
  cases f with
  | known k => cases h; exact ⟨rfl, rfl⟩
  | unrecognized d => cases h

/-- R53: a fetch that gives a value gives the cell at `pc`, and moves `pc` on, under any parameters. -/
theorem fetchWord_ok {v : Cell} (h : fetchWord p s = .ok v t) : v = cellFromPc s 0 ∧ t = afterCell s := by
  obtain ⟨x, u, hread, h⟩ := andThen_eq_ok.mp h
  obtain ⟨pc, w, hfit, h⟩ := andThen_eq_ok.mp h
  cases h
  obtain ⟨rfl, rfl⟩ := memRead_ok hread
  obtain ⟨rfl, rfl⟩ := fitPc_ok hfit
  exact ⟨by simp [cellFromPc], by rw [ofNat_toNat_add_one]; rfl⟩

theorem readByMode_pc {m : Mode} {raw v : Cell} (h : readByMode p m raw s = .ok v t) : t.pc = s.pc := by
  have read : ∀ {a : Cell} {u : State}, readAt p a u = .ok v t → t.pc = u.pc := fun hread => by
    obtain ⟨d, w, hd, hmem⟩ := andThen_eq_ok.mp hread
    obtain ⟨-, hw, -⟩ := checkPointer_ok hd
    rw [(memRead_ok hmem).2, hw]
  cases m with
  | immediate => cases h; rfl
  | position => exact read h
  | relative =>
    obtain ⟨a, u, hsum, hread⟩ := andThen_eq_ok.mp h
    rw [read hread, (fit64_ok hsum).2]

/-- The state is one cell further on: `pc` moved by one, and no cell's value changed. -/
def OneFurther (s t : State) : Prop := t.pc = s.pc + 1 ∧ ∀ a, t.mem.read a = s.mem.read a

theorem OneFurther.cellFromPc_eq (h : OneFurther s t) (k : Nat) : cellFromPc t k = cellFromPc s (k + 1) := by
  rw [cellFromPc, cellFromPc, h.1, h.2, BitVec.add_assoc, Nat.add_comm k 1, BitVec.ofNat_add]
  rfl

/-- A read operand that resolves consumed one cell. -/
theorem signedOperand_oneFurther {o : Operand} {v : Cell} (h : signedOperand p o s = .ok v t) : OneFurther s t := by
  have hc := signedOperand_consumes p o s
  rw [h] at hc
  refine ⟨?_, Consumes.read hc⟩
  obtain ⟨m, u, hu, hread⟩ := andThen_eq_ok.mp h
  obtain ⟨m', w, hw, hrest⟩ := andThen_eq_ok.mp hu
  obtain ⟨raw, x, hx, hend⟩ := andThen_eq_ok.mp hrest
  cases hend
  rw [readByMode_pc hread, (fetchWord_ok hx).2, (nextMode_ok hw).2, afterCell_pc]

/-! ## Operands, from the digits that remain -/

/-- The operand whose mode digit is the lowest of `m` and whose raw word stands `k` cells past `pc`. -/
def operandAt (m : Nat) (s : State) (k : Nat) : Operand := ⟨modeOfDigit (m % 10), cellFromPc s k⟩

theorem OneFurther.operandAt_eq (h : OneFurther s t) (m k : Nat) : operandAt m t k = operandAt m s (k + 1) := by
  rw [operandAt, operandAt, h.cellFromPc_eq]

/-- R55: `NextMode()` takes the lowest digit and leaves the others. -/
theorem nextModeOf_eq (m : Nat) (s : State) :
    nextModeOf m s = (nextMode (modeOfDigit (m % 10)) s).andThen fun md s => .ok (md, m / 10) s := by
  rw [nextModeOf]
  split
  · next h => rw [h]; rfl
  · next h => rw [h]; rfl
  · next h => rw [h]; rfl
  · next h0 h1 h2 => rw [modeOfDigit, if_neg h0, if_neg h1, if_neg h2]; rfl

/-- The mode digit and the cell at `pc`, taken one after the other, are those of the operand decoded from them. -/
theorem consume_eq (m : Nat) (s : State) (f : Mode × Nat → Cell → State → Res β) :
    ((nextModeOf m s).andThen fun md s => (fetchWord p s).andThen fun raw s => f md raw s) =
      (consumeOperand p (operandAt m s 0) s).andThen fun md t => f (md, m / 10) (cellFromPc s 0) t := by
  rw [nextModeOf_eq, consumeOperand, operandAt, andThen_assoc, andThen_assoc]
  refine andThen_congr fun md u hmd => ?_
  rw [(nextMode_ok hmd).2, andThen_ok, andThen_assoc]
  exact andThen_congr fun raw t hraw => by rw [(fetchWord_ok hraw).1, andThen_ok]

theorem readAt_andThen (v : Cell) (f : Cell → State → Res β) : (readAt p v s).andThen f =
    if v.toInt < 0 then .raised .negativePointer s else (memRead p v.toNat s).andThen f := by
  rw [readAt, checkPointer]
  split <;> rfl

theorem checkPointer_andThen (v : Cell) (f : Addr → State → Res β) : (checkPointer v s).andThen f =
    if v.toInt < 0 then .raised .negativePointer s else f v s := by
  rw [checkPointer]
  split <;> rfl

/-- R60: `SignedOperand()` is the operand decoded, with the digits that remain. -/
theorem signedOperandOf_eq (p : Params) (m : Nat) (s : State) :
    signedOperandOf p m s = (signedOperand p (operandAt m s 0) s).andThen fun v s => .ok (v, m / 10) s := by
  rw [signedOperandOf, consume_eq, signedOperand, andThen_assoc]
  congr 1
  funext md t
  cases md with
  | immediate => rfl
  | position => rw [readByMode, readAt_andThen]; rfl
  | relative => simp only [readByMode, andThen_assoc, readAt_andThen]; rfl

/-- R61: `UnsignedOperand()` likewise. -/
theorem unsignedOperandOf_eq (p : Params) (m : Nat) (s : State) :
    unsignedOperandOf p m s = (unsignedOperand p (operandAt m s 0) s).andThen fun v s => .ok (v, m / 10) s := by
  rw [unsignedOperandOf, signedOperandOf_eq, unsignedOperand, andThen_assoc, andThen_assoc]
  congr 1
  funext v t
  rw [andThen_ok, checkTarget]
  split <;> rfl

/-- R62: `WriteOperand()` likewise. -/
theorem writeOperandOf_eq (p : Params) (m : Nat) (s : State) :
    writeOperandOf p m s = (writeOperand p (operandAt m s 0) s).andThen fun v s => .ok (v, m / 10) s := by
  rw [writeOperandOf, consume_eq, writeOperand, andThen_assoc]
  congr 1
  funext md t
  cases md with
  | immediate => rw [addressByMode, checkPointer_andThen]; rfl
  | position => rw [addressByMode, checkPointer_andThen]; rfl
  | relative => simp only [addressByMode, andThen_assoc, checkPointer_andThen]; rfl

/-! ## Formats -/

/-- R63 format F3. -/
theorem formatF3_eq (p : Params) (m : Nat) (s : State) (f : Cell → Cell → Addr → State → Res β) :
    ((signedOperandOf p m s).andThen fun a s => (signedOperandOf p a.2 s).andThen fun b s =>
      (writeOperandOf p b.2 s).andThen fun w s => f a.1 b.1 w.1 s) =
    (resolveF3 p (operandAt m s 0) (operandAt (m / 10) s 1) (operandAt (m / 10 / 10) s 2) s).andThen fun o s =>
      f o.1 o.2.1 o.2.2 s := by
  simp only [resolveF3, signedOperandOf_eq, writeOperandOf_eq, andThen_assoc, andThen_ok]
  refine andThen_congr fun x t hx => ?_
  have ht := signedOperand_oneFurther hx
  rw [ht.operandAt_eq]
  refine andThen_congr fun y u hy => ?_
  have hu := signedOperand_oneFurther hy
  rw [hu.operandAt_eq, ht.operandAt_eq]

/-- R63 format F2J. -/
theorem formatF2J_eq (p : Params) (m : Nat) (s : State) (f : Cell → Addr → State → Res β) :
    ((signedOperandOf p m s).andThen fun a s => (unsignedOperandOf p a.2 s).andThen fun t s => f a.1 t.1 s) =
    (resolveF2J p (operandAt m s 0) (operandAt (m / 10) s 1) s).andThen fun o s => f o.1 o.2 s := by
  simp only [resolveF2J, signedOperandOf_eq, unsignedOperandOf_eq, andThen_assoc, andThen_ok]
  exact andThen_congr fun x t hx => by rw [(signedOperand_oneFurther hx).operandAt_eq]

/-- R63 format F1R. -/
theorem formatF1R_eq (p : Params) (m : Nat) (s : State) (f : Cell → State → Res β) :
    ((signedOperandOf p m s).andThen fun a s => f a.1 s) =
    (resolveF1R p (operandAt m s 0) s).andThen f := by
  simp only [resolveF1R, signedOperandOf_eq, andThen_assoc, andThen_ok]

/-- R63 format F1W. -/
theorem formatF1W_eq (p : Params) (m : Nat) (s : State) (f : Addr → State → Res β) :
    ((writeOperandOf p m s).andThen fun w s => f w.1 s) =
    (resolveF1W p (operandAt m s 0) s).andThen f := by
  simp only [resolveF1W, writeOperandOf_eq, andThen_assoc, andThen_ok]

/-! ## Instructions -/

/-- The operands that the decoder assembles are those the remaining digits give. -/
theorem operandAt_eq (word : Nat) (s : State) :
    (⟨modeFieldAt word 0, cellFromPc s 0⟩ : Operand) = operandAt (word / 100) s 0 ∧
    (⟨modeFieldAt word 1, cellFromPc s 1⟩ : Operand) = operandAt (word / 100 / 10) s 1 ∧
    (⟨modeFieldAt word 2, cellFromPc s 2⟩ : Operand) = operandAt (word / 100 / 10 / 10) s 2 := by
  simp [modeFieldAt, operandAt, opcodeRadix, modeRadix, Nat.div_div_eq_div_mul]

/-- R82: what `Execute` does is the instruction's effect, on operands already resolved. -/
theorem execute_lessThan (p : Params) (x y : Cell) (d : Addr) (s : State) :
    Operation.execute p (.lessThan x y d) s = memWrite p d.toNat (relationCell (lessThan x y)) s := by
  rw [Operation.execute, relationCell_eq (lessThan_iff x y)]

theorem execute_equals (p : Params) (x y : Cell) (d : Addr) (s : State) :
    Operation.execute p (.equals x y d) s = memWrite p d.toNat (relationCell (equalTo x y)) s := by
  rw [Operation.execute, relationCell_eq (equalTo_iff x y)]

theorem execute_jumpIfTrue (p : Params) (x : Cell) (d : Addr) (s : State) :
    Operation.execute p (.jumpIfTrue x d) s = .ok () (jumpIf (isTrue x) d s) := by
  simp only [Operation.execute, jumpIf, isTrue_iff]

theorem execute_jumpIfFalse (p : Params) (x : Cell) (d : Addr) (s : State) :
    Operation.execute p (.jumpIfFalse x d) s = .ok () (jumpIf (!isTrue x) d s) := by
  simp only [Operation.execute, jumpIf, Bool.not_eq_true', ← Bool.not_eq_true, isTrue_iff, not_not]

/-- R82: what follows the fetch of a word that selects the row `o`. -/
theorem fetchDecode_row {word : Cell} {o : Opcode} (hw : fetchWord p s = .ok word t) (h : selectOpcode word = .ok o) :
    ((fetchDecode p s).andThen (Operation.execute p)).outcome =
      execUnder p (assemble o word.toNat (cellFromPc t 0) (cellFromPc t 1) (cellFromPc t 2)) t := by
  obtain ⟨h0, ho⟩ := selectOpcode_eq_ok.mp h
  obtain ⟨e0, e1, e2⟩ := operandAt_eq word.toNat t
  rw [opcodeRadix] at ho
  rw [fetchDecode, hw, andThen_ok, if_neg (not_lt.mpr h0)]
  cases o <;> simp only [← ho, Opcode.code, assemble, e0, e1, e2, andThen_assoc, andThen_ok]
  case add => exact congrArg Res.outcome (formatF3_eq p _ t fun x y d => Operation.execute p (.add x y d))
  case mul => exact congrArg Res.outcome (formatF3_eq p _ t fun x y d => Operation.execute p (.multiply x y d))
  case inp => exact congrArg Res.outcome (formatF1W_eq p _ t fun d => Operation.execute p (.readInput d))
  case out => exact congrArg Res.outcome (formatF1R_eq p _ t fun x => Operation.execute p (.writeOutput x))
  case jt =>
    simp only [execute_jumpIfTrue]
    exact congrArg Res.outcome (formatF2J_eq p _ t fun x d s => .ok () (jumpIf (isTrue x) d s))
  case jf =>
    simp only [execute_jumpIfFalse]
    exact congrArg Res.outcome (formatF2J_eq p _ t fun x d s => .ok () (jumpIf (!isTrue x) d s))
  case lt =>
    simp only [execute_lessThan]
    exact congrArg Res.outcome (formatF3_eq p _ t fun x y d => memWrite p d.toNat (relationCell (lessThan x y)))
  case eq =>
    simp only [execute_equals]
    exact congrArg Res.outcome (formatF3_eq p _ t fun x y d => memWrite p d.toNat (relationCell (equalTo x y)))
  case arb => exact congrArg Res.outcome (formatF1R_eq p _ t fun x => Operation.execute p (.adjustRelativeBase x))
  case hlt => rfl

/-- R52, R65: what follows the fetch of a word that selects no row. -/
theorem fetchDecode_error {word : Cell} {e : DecodeError} (hw : fetchWord p s = .ok word t)
    (h : selectOpcode word = .error e) : fetchDecode p s = .raised (causeOfDecodeError e) t := by
  rw [fetchDecode, hw, andThen_ok]
  by_cases hneg : word.toInt < 0
  · rw [selectOpcode_negative hneg] at h
    cases h
    rw [if_pos hneg]
    rfl
  · rw [if_neg hneg]
    have hcodes : ∀ o : Opcode, o.code ≠ word.toNat % 100 := fun o ho => by
      rw [selectOpcode_row (not_lt.mp hneg) ho] at h
      cases h
    have hnone : Opcode.ofCode (word.toNat % 100) = none := ofCode_eq_none.mpr hcodes
    rw [selectOpcode_none (not_lt.mp hneg) hcodes] at h
    cases h
    split
    rotate_right
    · rfl
    all_goals
      next hrow =>
      rw [hrow] at hnone
      exact absurd hnone (by decide)

/-- R81: reading the four cells first and running the instruction made of them is `FetchDecode`, then `Execute`. -/
theorem executeOne_eq (p : Params) (s : State) :
    executeOne p (execUnder p) s = ((fetchDecode p s).andThen (Operation.execute p)).outcome := by
  cases hw : fetchWord p s with
  | raised c t => simp only [executeOne, fetchDecode, hw, andThen_raised, outcome_raised]
  | stuck r => simp only [executeOne, fetchDecode, hw, andThen_stuck, outcome_stuck]
  | ok word t =>
    cases h : selectOpcode word with
    | ok o => simp only [executeOne, hw, decodeAtPc, decodeWords, h, fetchDecode_row hw h]
    | error e =>
      simp only [executeOne, hw, decodeAtPc, decodeWords, h, fetchDecode_error hw h, andThen_raised, outcome_raised]

theorem stepUnder_eq_microStepOf (p : Params) (s : State) : stepUnder p s = (microStepOf p s).outcome := by
  cases hs : s.state with
  | executing => simp only [stepUnder, microStepWith, microStepOf, hs, executeOne_eq]
  | needsInput d =>
    simp only [stepUnder, microStepWith, microStepOf, hs, deliverInput, inDequeue]
    cases s.iq <;> rfl
  | hasOutput | done | faulted c => simp only [stepUnder, microStepWith, microStepOf, hs, outcome_ok]

theorem exec_eq_execUnder (i : Instr) (s : State) : exec i s = execUnder params i s := by
  cases i <;> rfl

theorem step_eq_stepUnder (s : State) : step s = stepUnder params s := by
  have hexec : exec = execUnder params := funext fun i => funext (exec_eq_execUnder i)
  rw [step, microStep, stepUnder, hexec]

/-- Settles O17: outside `Executing` both do the same; in it, each operand decoded from the cells at `pc` is the one that
the pseudocode reads there when it comes to it. -/
theorem stepIsTheSpecsPseudocode : Obligations.StepIsTheSpecsPseudocode :=
  ⟨stepUnder_eq_microStepOf, exec_eq_execUnder, fun s => (step_eq_stepUnder s).trans (stepUnder_eq_microStepOf _ s)⟩

end Sys2Proof.Machine
end

section
/-!
PROOFS. Finite parameters (R46, R113): what has no step under a finite `MEM_CAPACITY` or `OQ_DEPTH`, and what has one. And
the host's transactions on one machine (R153, R156).
-/

namespace Sys2Proof.Machine

open Sys2Proof

variable {s : State} {p : Params} {c : Nat}

/-! ## A finite `MEM_CAPACITY` -/

theorem memHolds_below (hp : p.memCapacity = some c) {a : Nat} (h : a < c) : memHolds p a = true :=
  (memHolds_capacity hp a).mpr h

/-- The fetch of a word at or above the capacity has no step. -/
theorem stepUnder_fetch_exhausted (hp : p.memCapacity = some c) (hs : s.state = .executing) (h : c ≤ s.pc.toNat) :
    stepUnder p s = .fault (.memoryExhausted s.pc.toNat) := by
  simp only [stepUnder, microStepWith, hs, executeOne, fetchWord, memRead_exhausted hp h, andThen_stuck]

theorem signedOperand_exhausted (hp : p.memCapacity = some c) {o : Operand} {a : Nat} (ho : Readable o s)
    (hr : PcRoom 1 s) (hpc : s.pc.toNat < c) (ha : readAddress o s = some a) (h : c ≤ a) :
    signedOperand p o s = .stuck (.memoryExhausted a) := by
  rw [signedOperand_memory ho (memHolds_below hp hpc) hr ha, memRead_exhausted hp h]

/-- The operands of format F3 resolve where their own cells and the cells they read are below the capacity. -/
theorem resolveF3_below (hp : p.memCapacity = some c) {a b w : Operand} (h : ReadyF3 a b w s) (hpc : s.pc.toNat + 3 ≤ c)
    (ha : ReadsBelow c a s) (hb : ReadsBelow c b s) :
    ∃ d : Addr, resolveF3 p a b w s = .ok (readValue a s, readValue b s, d) (afterF3 a b s) ∧
      d.toNat = writeAddress w s :=
  resolveF3_holds h (fun _ hk => memHolds_below hp (by omega)) (fun x hx => memHolds_below hp (ha x hx))
    fun x hx => memHolds_below hp (hb x hx)

/-- R33, R46: a store at or above the capacity has no step, of whatever value. -/
theorem store_exhausted (hp : p.memCapacity = some c) {a b w : Operand} (h : ReadyF3 a b w s) (hpc : s.pc.toNat + 3 ≤ c)
    (ha : ReadsBelow c a s) (hb : ReadsBelow c b s) (hw : c ≤ writeAddress w s) (g : Cell → Cell → Cell) :
    ((resolveF3 p a b w s).andThen fun o s => memWrite p o.2.2.toNat (g o.1 o.2.1) s).outcome =
      .fault (.memoryExhausted (writeAddress w s)) := by
  obtain ⟨d, hd, e⟩ := resolveF3_below hp h hpc ha hb
  rw [hd, andThen_ok, memWrite_exhausted hp (by rwa [e]), e, outcome_stuck]

/-- So has an exact result, where it passes `fit64`. -/
theorem storeExact_exhausted (hp : p.memCapacity = some c) {a b w : Operand} (h : ReadyF3 a b w s)
    (hpc : s.pc.toNat + 3 ≤ c) (ha : ReadsBelow c a s) (hb : ReadsBelow c b s) (hw : c ≤ writeAddress w s)
    {g : Int → Int → Int} (hg : InI64 (g (readValue a s).toInt (readValue b s).toInt)) :
    ((resolveF3 p a b w s).andThen fun o s => storeExact p o.2.2 (g o.1.toInt o.2.1.toInt) s).outcome =
      .fault (.memoryExhausted (writeAddress w s)) := by
  obtain ⟨d, hd, e⟩ := resolveF3_below hp h hpc ha hb
  rw [hd, andThen_ok, storeExact, fit64_fits p hg, andThen_ok, memWrite_exhausted hp (by rwa [e]), e, outcome_stuck]

theorem stepUnder_delivery_exhausted (hp : p.memCapacity = some c) {d : Addr} (hs : s.state = .needsInput d)
    (hq : s.iq ≠ []) (h : c ≤ d.toNat) : stepUnder p s = .fault (.memoryExhausted d.toNat) := by
  obtain ⟨v, rest, hiq⟩ := List.exists_cons_of_ne_nil hq
  simp only [stepUnder, microStepWith, hs, deliverInput, inDequeue, hiq, memWrite_exhausted hp h, andThen_stuck,
    outcome_stuck]

/-! ## A finite `OQ_DEPTH` -/

/-- R111, R113: an OUT whose operand resolves comes to the enqueue of its value. -/
theorem outUnder_ready (hp : p.memCapacity = none) {a : Operand} (h : ReadyF1R a s) :
    outUnder p a s = if hasRoom p.oqDepth s.oq then
      .next { afterRead a s with oq := s.oq ++ [readValue a s], state := .hasOutput } else .fault .outputHeld := by
  rw [outUnder, resolveF1R_ready hp h, andThen_ok, outEnqueue, afterRead_oq]
  split <;> rfl

theorem hasRoom_some (d : Nat) (l : List Cell) : hasRoom (some d) l = true ↔ l.length < d := by
  simp [hasRoom]

/-- Settles O50: each access is made below the capacity and stuck from it on; an OUT is stuck where `OQ` is full, and no
longer once a value is removed. -/
theorem finiteLimitsHold : Obligations.FiniteLimitsHold := by
  refine ⟨fun p c hp => ⟨fun a v s => ⟨fun h => ?_, fun h => ?_⟩, fun s => stepUnder_fetch_exhausted hp,
    fun o s a ho hr hpc ha h => ?_, fun a b w s h hpc ha hb hw => ?_, fun s d => stepUnder_delivery_exhausted hp⟩,
    fun p a s d hp hd h hlen hpos => ⟨?_, ?_⟩⟩
  · exact ⟨memRead_exhausted hp h s, memWrite_exhausted hp h v s⟩
  · exact ⟨memRead_holds (memHolds_below hp h) s, memWrite_holds (memHolds_below hp h) v s⟩
  · have hsigned := signedOperand_exhausted hp ho hr hpc ha h
    exact ⟨hsigned, by rw [unsignedOperand, hsigned, andThen_stuck]⟩
  · exact ⟨storeExact_exhausted (g := (· + ·)) hp h hpc ha hb hw, storeExact_exhausted (g := (· * ·)) hp h hpc ha hb hw,
      store_exhausted hp h hpc ha hb hw fun x y => relationCell (lessThan x y),
      store_exhausted hp h hpc ha hb hw fun x y => relationCell (equalTo x y)⟩
  · rw [execUnder, outUnder_ready hp h, if_neg (by rw [hd, hasRoom_some]; omega)]
  · obtain ⟨v, rest, hoq⟩ := List.exists_cons_of_length_pos (hlen ▸ hpos)
    have hready : ReadyF1R a { s with oq := rest } := h
    have hroom : rest.length < d := by rw [← hlen, hoq]; exact Nat.lt_succ_self _
    rw [outputDequeue_of_cons hoq, execUnder, outUnder_ready hp hready, if_pos (by rwa [hd, hasRoom_some])]
    exact ⟨_, rfl, rfl⟩

/-! ## The host's transactions -/

/-- Settles O52: an unbounded queue takes the value; a waiting core's next step delivers the front, the value itself; and a
queue of finite depth has room exactly below it. -/
theorem inputEnqueueAppends : Obligations.InputEnqueueAppends := by
  refine ⟨fun v s => rfl, fun v s t u d hs hq ht hu => ?_, fun p v s d hp => ?_⟩
  · have hiq : t.iq = v :: [] := by cases ht; simp [hq]
    have hwait : t.state = .needsInput d := by cases ht; exact hs
    rw [step_delivers hwait hiq] at hu
    cases hu
    exact ⟨read_write_same _ _ _, rfl, rfl⟩
  · have hroom := hasRoom_some d s.iq
    rw [inputEnqueueUnder, hp]
    split <;> simp_all

/-- Settles O53: the listing is that of the indices below `MEMLEN`. -/
theorem peekShowsTheMachine : Obligations.PeekShowsTheMachine := by
  refine fun s => ⟨rfl, by simp [peek], fun a ha => ?_, rfl⟩
  simp [peek, List.getElem?_map, List.getElem?_range ha]

end Sys2Proof.Machine
end

section
/-!
PROOFS. Several cores (`48_host_interface.md` R163, R164, R166; `70_reset_and_hazards.md` R196): what one micro-step of a
core does to a system, who is given none, and what a queue carries.
-/

namespace Sys2Proof.Machine

open Sys2Proof

variable {p : Params} {sys sys' : System} {k : Nat} {n : Node} {s t : State}

/-! ## The micro-step of a core -/

/-- The system after core `k`, which is `n`, went to the machine `t`. -/
def System.after (sys : System) (k : Nat) (n : Node) (t : State) : System :=
  { nodes := sys.nodes.set k (n.advance (sys.view n) t), queues := queuesAfter sys.queues n (sys.view n) t }

/-- What lets core `k`, which is `n`, go to the machine `t`. -/
structure System.CanGo (p : Params) (sys : System) (k : Nat) (n : Node) (t : State) : Prop where
  node : sys.nodes[k]? = some n
  free : sys.contended k n = false
  step : stepUnder (sys.paramsOf p n) (sys.view n) = .next t

theorem System.CanGo.tick_eq (h : sys.CanGo p k n t) : sys.tick p k = .next (sys.after k n t) := by
  simp only [System.tick, h.node, h.free, h.step]
  rfl

theorem tick_eq_next (h : sys.tick p k = .next sys') : ∃ n t, sys.CanGo p k n t ∧ sys' = sys.after k n t := by
  cases hn : sys.nodes[k]? with
  | none => simp [System.tick, hn] at h
  | some n =>
    cases hc : sys.contended k n with
    | true => simp [System.tick, hn, hc] at h
    | false =>
      cases hs : stepUnder (sys.paramsOf p n) (sys.view n) with
      | next t => exact ⟨n, t, ⟨hn, hc, hs⟩, by simpa [System.tick, hn, hc, hs, eq_comm, System.after] using h⟩
      | fault r => simp [System.tick, hn, hc, hs] at h
      | refused r => simp [System.tick, hn, hc, hs] at h

theorem contended_eq_false : sys.contended k n = false ↔
    ∀ (j : Nat) (m : Node), j ≠ k → sys.nodes[j]? = some m → m.inStep = true → sharesEnd m n = false := by
  simp only [System.contended, List.any_eq_false, List.mem_range, System.blocks]
  constructor
  · intro h j m hj hm hin
    have := h j (List.getElem?_eq_some_iff.mp hm).1
    simpa [hj, hm, hin] using this
  · intro h j hlt
    rw [List.getElem?_eq_getElem hlt]
    simp only [bne_iff_ne, Bool.and_eq_true, not_and]
    exact fun hj hin => by simp [h j _ hj (List.getElem?_eq_getElem hlt) hin]

/-! ## Schedules -/

theorem runSchedule_cons (p : Params) (sys : System) (k : Nat) (rest : List Nat) :
    sys.runSchedule p (k :: rest) = (sys.runSchedule p [k]).runSchedule p rest := by
  simp only [System.runSchedule]
  cases sys.tick p k <;> rfl

theorem runSchedule_next (h : sys.tick p k = .next sys') : sys.runSchedule p [k] = sys' := by
  simp only [System.runSchedule, h]

theorem runSchedule_stays (h : ∀ sys', sys.tick p k ≠ .next sys') : sys.runSchedule p [k] = sys := by
  simp only [System.runSchedule]
  cases ht : sys.tick p k with
  | next sys' => exact absurd ht (h sys')
  | fault r => rfl
  | refused r => rfl

/-- What every micro-step keeps, every schedule keeps. -/
theorem runSchedule_keeps {P : System → Prop} (hP : ∀ sys k sys', P sys → sys.tick p k = .next sys' → P sys') (h : P sys)
    (schedule : List Nat) : P (sys.runSchedule p schedule) := by
  induction schedule generalizing sys with
  | nil => exact h
  | cons k rest ih =>
    rw [runSchedule_cons]
    refine ih ?_
    by_cases ht : ∃ sys', sys.tick p k = .next sys'
    · obtain ⟨sys', ht⟩ := ht
      rw [runSchedule_next ht]
      exact hP sys k sys' h ht
    · rw [runSchedule_stays fun sys' e => ht ⟨sys', e⟩]
      exact h

/-! ## Lists of queues -/

theorem getD_set (Q : List (List Cell)) (i q : Nat) (l : List Cell) :
    (Q.set i l).getD q [] = if q = i ∧ q < Q.length then l else Q.getD q [] := by
  simp only [List.getD_eq_getElem?_getD, List.getElem?_set]
  by_cases hq : q < Q.length
  · by_cases hi : i = q <;> simp [hi, hq, eq_comm]
  · simp only [hq, and_false, if_false]
    by_cases hi : i = q
    · simp [hi, hq]
    · simp [hi]

theorem set_getD_self (Q : List (List Cell)) (i : Nat) : Q.set i (Q.getD i []) = Q := by
  refine List.ext_getElem? fun q => ?_
  rw [List.getElem?_set]
  split
  · next h =>
    subst h
    split
    · next hlt => simp [List.getD_eq_getElem?_getD, hlt]
    · next hge => simp [List.getElem?_eq_none (not_lt.mp hge)]
  · rfl

theorem queuesAfter_length (Q : List (List Cell)) (n : Node) (s t : State) :
    (queuesAfter Q n s t).length = Q.length := by
  rw [queuesAfter]
  split <;> simp

/-! ## What a micro-step takes and emits, under any parameters -/

/-- The host's interface refuses no micro-step. -/
theorem stepUnder_ne_refused (p : Params) (s : State) (r : Refusal) : stepUnder p s ≠ .refused r := by
  rw [stepUnder_eq_microStepOf]
  cases microStepOf p s <;> simp [Res.outcome]

theorem stepUnder_hasOutput (hs : s.state = .hasOutput) : stepUnder p s = .next { s with state := .executing } := by
  simp only [stepUnder, microStepWith, hs]

theorem stepUnder_terminal (hs : s.state.terminal = true) : stepUnder p s = .next s := by
  cases h : s.state with
  | done | faulted c => simp only [stepUnder, microStepWith, h]
  | executing | needsInput d | hasOutput => rw [h] at hs; cases hs

theorem stepUnder_waiting {d : Addr} (hs : s.state = .needsInput d) (hq : s.iq = []) : stepUnder p s = .next s := by
  simp only [stepUnder, microStepWith, hs, deliverInput, inDequeue, hq]

/-- R88: a delivery is made where the memory holds `DEST`. -/
theorem stepUnder_delivers {d : Addr} {v : Cell} {rest : List Cell} (hs : s.state = .needsInput d) (hq : s.iq = v :: rest) :
    stepUnder p s = if memHolds p d.toNat then
      .next { s with iq := rest, mem := s.mem.write d.toNat v, state := .executing }
      else .fault (.memoryExhausted d.toNat) := by
  simp only [stepUnder, microStepWith, hs, deliverInput, inDequeue, hq, memWrite]
  split <;> rfl

/-- R93, R114: a micro-step delivers the front of `IQ`, or leaves `IQ` alone and appends to `OQ`. -/
theorem stepUnder_queues (h : stepUnder p s = .next t) :
    (∃ d v, s.state = .needsInput d ∧ s.iq = v :: t.iq ∧ t.oq = s.oq) ∨
    ((∀ d, s.state = .needsInput d → s.iq = []) ∧ t.iq = s.iq ∧ ∃ e, t.oq = s.oq ++ e) := by
  cases hs : s.state with
  | executing =>
    obtain ⟨hiq, e, -, hoq, -⟩ := stepUnder_uniform hs h
    exact .inr ⟨nofun, hiq, e, hoq⟩
  | needsInput d =>
    cases hq : s.iq with
    | nil =>
      rw [stepUnder_waiting hs hq] at h
      cases h
      exact .inr ⟨fun _ _ => rfl, hq, [], by simp⟩
    | cons v rest =>
      rw [stepUnder_delivers hs hq] at h
      split at h <;> cases h
      exact .inl ⟨d, v, rfl, rfl, rfl⟩
  | hasOutput =>
    rw [stepUnder_hasOutput hs] at h
    cases h
    exact .inr ⟨nofun, rfl, [], by simp⟩
  | done | faulted c =>
    rw [stepUnder_terminal (by rw [hs]; rfl)] at h
    cases h
    exact .inr ⟨nofun, rfl, [], by simp⟩

/-! ## Frames -/

theorem after_nodes_other (sys : System) {k j : Nat} (n : Node) (t : State) (hj : j ≠ k) :
    (sys.after k n t).nodes[j]? = sys.nodes[j]? :=
  List.getElem?_set_ne hj.symm

theorem after_node_self (sys : System) {k : Nat} {n : Node} (t : State) (hn : sys.nodes[k]? = some n) :
    (sys.after k n t).nodes[k]? = some (n.advance (sys.view n) t) :=
  List.getElem?_set_self (List.getElem?_eq_some_iff.mp hn).1

theorem after_queue_other (sys : System) {k q : Nat} {n : Node} (t : State) (hi : q ≠ n.inQ) (ho : q ≠ n.outQ) :
    (sys.after k n t).queue q = sys.queue q := by
  simp only [System.queue, System.after, queuesAfter]
  split
  · rw [getD_set, if_neg fun h => hi h.1]
  · rw [getD_set, if_neg fun h => ho h.1]

/-- Settles O54: the micro-step sets the core's own node and one of its two queues. -/
theorem coresOwnTheirMemory : Obligations.CoresOwnTheirMemory := by
  intro p sys sys' k n hn h
  obtain ⟨m, t, hgo, rfl⟩ := tick_eq_next h
  cases hn.symm.trans hgo.node
  exact ⟨fun j hj => after_nodes_other sys n t hj, fun q hi ho => after_queue_other sys t hi ho, by simp [System.after],
    queuesAfter_length _ _ _ _⟩

/-- A node that is not the one stepped is found as before. -/
theorem tick_nodes_other {j : Nat} (h : sys.tick p k = .next sys') (hj : j ≠ k) : sys'.nodes[j]? = sys.nodes[j]? := by
  obtain ⟨n, t, -, rfl⟩ := tick_eq_next h
  exact after_nodes_other sys n t hj

/-- Settles O55: the clone is put behind the cores there are, with the same node. -/
theorem snapshotSharesOnlyQueues : Obligations.SnapshotSharesOnlyQueues := by
  intro p sys k n hn hin
  have hlt : k < sys.nodes.length := (List.getElem?_eq_some_iff.mp hn).1
  have hold : ∀ j, j < sys.nodes.length → (sys.nodes ++ [n])[j]? = sys.nodes[j]? := fun j => List.getElem?_append_left
  have hnew : (sys.nodes ++ [n])[sys.nodes.length]? = some n := by simp
  refine ⟨{ sys with nodes := sys.nodes ++ [n] }, by simp [System.snapshot, System.onCore, System.withCore, hn, hin], hnew,
    hold, rfl, rfl, fun sys'' h => ?_, fun sys'' h => ?_⟩
  · rw [tick_nodes_other h (Nat.ne_of_gt hlt), hnew]
  · rw [tick_nodes_other h (Nat.ne_of_lt hlt), hold k hlt, hn]

/-! ## R196 -/

theorem sharesEnd_comm (n m : Node) : sharesEnd n m = sharesEnd m n := by
  simp only [sharesEnd, Bool.beq_comm]

theorem tick_contended (hn : sys.nodes[k]? = some n) (hc : sys.contended k n = true) :
    sys.tick p k = .refused .sharedQueueBusy := by
  simp only [System.tick, hn, hc, if_true]

theorem tick_not_busy (hn : sys.nodes[k]? = some n) (hc : sys.contended k n = false) :
    sys.tick p k ≠ .refused .sharedQueueBusy := by
  simp only [System.tick, hn, hc]
  cases hs : stepUnder (sys.paramsOf p n) (sys.view n) with
  | next t => simp
  | fault r => simp
  | refused r => exact absurd hs (stepUnder_ne_refused _ _ _)

/-- A core that is given a step shares no queue end with another that is inside one. -/
theorem tick_exclusive (hx : sys.Exclusive) (h : sys.tick p k = .next sys') : sys'.Exclusive := by
  obtain ⟨n, t, hgo, rfl⟩ := tick_eq_next h
  have hfree := contended_eq_false.mp hgo.free
  have hself := after_node_self sys t hgo.node
  have key : ∀ j m, j ≠ k → sys.nodes[j]? = some m → sharesEnd m n = true → m.inStep = false := fun j m hj hm hs => by
    cases hin : m.inStep with
    | false => rfl
    | true => rw [hfree j m hj hm hin] at hs; cases hs
  intro i j a b hij ha hb hs
  by_cases hi : i = k
  · subst hi
    rw [hself] at ha
    cases ha
    rw [after_nodes_other sys n t (Ne.symm hij)] at hb
    exact .inr (key j b (Ne.symm hij) hb (by rw [sharesEnd_comm]; exact hs))
  · rw [after_nodes_other sys n t hi] at ha
    by_cases hj : j = k
    · subst hj
      rw [hself] at hb
      cases hb
      exact .inl (key i a hi ha hs)
    · rw [after_nodes_other sys n t hj] at hb
      exact hx i j a b hij ha hb hs

theorem onCore_inStep {α : Type} (hn : sys.nodes[k]? = some n) (hin : n.inStep = true)
    (f : Node → Host.Outcome α Fault Refusal) : sys.onCore k f = .refused .coreInsideStep := by
  simp only [System.onCore, System.withCore, hn, hin, if_true]

theorem heldAtOut_iff : sys.heldAtOut p n = true ↔ stepUnder (sys.paramsOf p n) (sys.view n) = .fault .outputHeld := by
  simp only [System.heldAtOut]
  cases stepUnder (sys.paramsOf p n) (sys.view n) <;> simp

/-- Settles O56: a core inside a Step blocks its sharers and no others, so a micro-step makes no second sharer busy; and the
host's transactions look at whether the core is inside a Step, all but the dequeue whatever it stands at. -/
theorem secondSharerIsRefused : Obligations.SecondSharerIsRefused := by
  refine fun p sys => ⟨fun j k n m hjk hn hm hin hs => ?busy, fun k m hm hfree => ?free, fun hx => ?exclusive,
    fun k n hn hin => ?host⟩
  case busy =>
    have hc : sys.contended k m = true := by
      by_contra h
      have := contended_eq_false.mp (Bool.not_eq_true _ ▸ h) j n hjk hn hin
      rw [hs] at this
      cases this
    have ht := tick_contended (p := p) hm hc
    exact ⟨ht, runSchedule_stays fun sys' e => by rw [ht] at e; cases e⟩
  case free => exact tick_not_busy hm (contended_eq_false.mpr hfree)
  case exclusive => exact runSchedule_keeps (fun _ _ _ hx h => tick_exclusive hx h) hx
  case host =>
    refine ⟨fun rom => onCore_inStep hn hin _, onCore_inStep hn hin _, fun v => onCore_inStep hn hin _,
      onCore_inStep hn hin _, fun hne => ?_, fun hheld v rest hq => ?_⟩
    · have hheld : sys.heldAtOut p n = false := Bool.eq_false_iff.mpr fun h => hne (heldAtOut_iff.mp h)
      simp [System.outputDequeue, System.withCore, hn, hin, hheld]
    · simp [System.outputDequeue, System.withCore, hn, heldAtOut_iff.mpr hheld, hq]

/-! ## What a queue carries -/

theorem takes_waiting (h : sys.CanGo p k n t) {d : Addr} (hs : n.state = .needsInput d) (q : Nat) :
    sys.takes p k q = if n.inQ = q then (sys.queue q).take 1 else [] := by
  simp only [System.takes, h.tick_eq, h.node, hs]

/-- Only a core that waits, with a value there, takes one. -/
theorem takes_nothing (h : sys.CanGo p k n t) (hs : ∀ d, n.state = .needsInput d → sys.queue n.inQ = []) (q : Nat) :
    sys.takes p k q = [] := by
  cases hstate : n.state with
  | needsInput d =>
    rw [takes_waiting h hstate]
    split
    · next hin => rw [← hin, hs d hstate, List.take_nil]
    · rfl
  | _ => simp only [System.takes, h.tick_eq, h.node, hstate]

theorem emits_canGo (h : sys.CanGo p k n t) (q : Nat) :
    sys.emits p k q = if n.outQ = q then t.oq.drop (sys.queue n.outQ).length else [] := by
  simp only [System.emits, h.tick_eq, h.node, h.step]
  rfl

/-- The queues after a micro-step that left `OQ` alone. -/
theorem queue_after_taken (k : Nat) (hoq : t.oq = (sys.view n).oq) {q : Nat} (hq : q < sys.queues.length) :
    (sys.after k n t).queue q = if n.inQ = q then t.iq else sys.queue q := by
  simp only [System.queue, System.after, queuesAfter, if_pos hoq, getD_set, hq, and_true, eq_comm (a := q)]

/-- The queues after a micro-step that left `IQ` alone. -/
theorem queue_after_emitted (k : Nat) (hiq : t.iq = sys.queue n.inQ) {e : List Cell} (hoq : t.oq = sys.queue n.outQ ++ e)
    {q : Nat} (hq : q < sys.queues.length) :
    (sys.after k n t).queue q = if n.outQ = q then sys.queue q ++ e else sys.queue q := by
  by_cases he : e = []
  · have hsame : t.oq = (sys.view n).oq := by rw [hoq, he, List.append_nil]; rfl
    rw [queue_after_taken k hsame hq, he, List.append_nil, ite_self, hiq]
    split
    · next h => rw [h]
    · rfl
  · have hne : t.oq ≠ (sys.view n).oq := fun h => he (List.append_right_eq_self.mp (hoq.symm.trans h))
    simp only [System.queue, System.after, queuesAfter, if_neg hne, getD_set, hq, and_true, eq_comm (a := q)]
    split
    · next h => rw [hoq, h]; rfl
    · rfl

/-- A micro-step moves the front of the queue it takes from and the back of the queue it emits to. -/
theorem after_conserves (h : sys.CanGo p k n t) {q : Nat} (hq : q < sys.queues.length) :
    sys.queue q ++ sys.emits p k q = sys.takes p k q ++ (sys.after k n t).queue q := by
  rw [emits_canGo h]
  rcases stepUnder_queues h.step with ⟨d, v, hs, hiq, hoq⟩ | ⟨hwait, hiq, e, hoq⟩
  · have hfront : sys.queue n.inQ = v :: t.iq := hiq
    have hdrop : t.oq.drop (sys.queue n.outQ).length = [] := by rw [hoq]; exact List.drop_length
    rw [takes_waiting h hs, queue_after_taken k hoq hq, hdrop, ite_self, List.append_nil]
    by_cases hin : n.inQ = q
    · subst hin
      simp [hfront]
    · simp [hin]
  · have hdrop : t.oq.drop (sys.queue n.outQ).length = e := by rw [hoq]; exact List.drop_left
    rw [takes_nothing h hwait, queue_after_emitted k hiq hoq hq, hdrop, List.nil_append]
    split <;> simp

/-- One entry of a schedule conserves what a queue carries. -/
theorem runSchedule_one_conserves (p : Params) (sys : System) (k : Nat) {q : Nat} (hq : q < sys.queues.length) :
    sys.queue q ++ sys.emits p k q = sys.takes p k q ++ (sys.runSchedule p [k]).queue q ∧
      (sys.runSchedule p [k]).queues.length = sys.queues.length := by
  cases ht : sys.tick p k with
  | next sys' =>
    obtain ⟨n, t, hgo, rfl⟩ := tick_eq_next ht
    rw [runSchedule_next ht]
    exact ⟨after_conserves hgo hq, queuesAfter_length _ _ _ _⟩
  | fault r | refused r =>
    have hemits : sys.emits p k q = [] := by simp only [System.emits, ht]
    have htakes : sys.takes p k q = [] := by simp only [System.takes, ht]
    have hstays : sys.runSchedule p [k] = sys := runSchedule_stays (by simp [ht])
    simp [hemits, htakes, hstays]

/-- Settles O57: by induction on the schedule; each micro-step conserves what the queue carries, in order. -/
theorem queuesAreFifo : Obligations.QueuesAreFifo := by
  intro p sys schedule q hq
  induction schedule generalizing sys with
  | nil => simp [System.emitted, System.taken, System.runSchedule]
  | cons k rest ih =>
    obtain ⟨hone, hlen⟩ := runSchedule_one_conserves p sys k hq
    have htail := ih (sys.runSchedule p [k]) (by rwa [hlen])
    rw [System.emitted, System.taken, ← List.append_assoc, hone, List.append_assoc, htail, List.append_assoc,
      ← runSchedule_cons]

/-! ## The ring -/

theorem ringNode_of_getElem {rom phases : List Cell} {i : Nat} {n : Node}
    (h : (System.ring rom phases).nodes[i]? = some n) : i < phases.length ∧ n = ringNode rom phases.length i := by
  simp only [System.ring, List.getElem?_map, Option.map_eq_some_iff] at h
  obtain ⟨j, hj, rfl⟩ := h
  obtain ⟨hlt, rfl⟩ := List.getElem?_eq_some_iff.mp hj
  simpa using hlt

/-- Settles O60: core `i` takes from queue `i` and appends to its successor's, and the successors of two cores differ. -/
theorem ringIsWellWired : Obligations.RingIsWellWired := by
  have hmem : ∀ {rom phases : List Cell} {n : Node}, n ∈ (System.ring rom phases).nodes →
      ∃ i, i < phases.length ∧ n = ringNode rom phases.length i := fun h => by
    obtain ⟨i, hi⟩ := List.mem_iff_getElem?.mp h
    exact ⟨i, ringNode_of_getElem hi⟩
  refine fun rom phases => ⟨⟨fun i j n m hij hn hm => ?_, fun n h => ?_⟩, fun n h => ?_⟩
  · obtain ⟨hi, rfl⟩ := ringNode_of_getElem hn
    obtain ⟨hj, rfl⟩ := ringNode_of_getElem hm
    have hsucc : (i + 1) % phases.length ≠ (j + 1) % phases.length := fun h =>
      hij (Nat.ModEq.eq_of_lt_of_lt (Nat.ModEq.add_right_cancel' 1 h) hi hj)
    simp [sharesEnd, ringNode, Node.loaded, hij, hsucc]
  · obtain ⟨i, hi, rfl⟩ := hmem h
    have hlen : (System.ring rom phases).queues.length = phases.length := by simp [System.ring]
    rw [hlen]
    exact ⟨hi, Nat.mod_lt _ (Nat.zero_lt_of_lt hi)⟩
  · obtain ⟨i, -, rfl⟩ := hmem h
    rfl

end Sys2Proof.Machine
end

section
/-!
PROOFS. Wired cores (`48_host_interface.md` section 3): micro-steps of two different cores of a well-wired system commute,
and so every interleaving that comes to an end comes to the same one (law P8).
-/

namespace Sys2Proof.Machine

open Sys2Proof

variable {p : Params} {sys sys' : System} {j k : Nat} {n m : Node} {s t : State} {Q : List (List Cell)}

/-! ## What a micro-step does to the queues, as an act that does not depend on what else they hold -/

/-- The machine that a core is, among the queues `Q`. -/
def Node.machine (n : Node) (Q : List (List Cell)) : State := System.view { nodes := [], queues := Q } n

/-- R93: a micro-step takes the front of its input queue, or appends to its output queue. -/
inductive Act where
  | take (v : Cell)
  | put (e : List Cell)

/-- The queues after an act of core `n`. -/
def Act.apply (n : Node) : Act → List (List Cell) → List (List Cell)
  | .take _, Q => Q.set n.inQ (Q.getD n.inQ []).tail
  | .put e, Q => Q.set n.outQ (Q.getD n.outQ [] ++ e)

/-- The act can be done: the value is at the front, or there is room for what is appended. -/
def Act.Possible (p : Params) (n : Node) : Act → List (List Cell) → Prop
  | .take v, Q => (Q.getD n.inQ []).head? = some v
  | .put e, Q => e ≠ [] → hasRoom p.oqDepth (Q.getD n.outQ []) = true

/-- The micro-step of core `n` makes it the core `m` and does the act `a`, among any queues in which that act is possible. -/
def Acts (p : Params) (n m : Node) (a : Act) : Prop :=
  ∀ Q, a.Possible p n Q → ∃ t, stepUnder p (n.machine Q) = .next t ∧ n.advance (n.machine Q) t = m ∧
    queuesAfter Q n (n.machine Q) t = a.apply n Q

/-- A micro-step that looks at no queue is an append. -/
theorem acts_put (h : Uniform p (stepUnder p) (n.machine Q) t) :
    ∃ a, a.Possible p n Q ∧ Acts p n (n.advance (n.machine Q) t) a := by
  obtain ⟨-, e, -, -, hroom, hall⟩ := h
  refine ⟨.put e, hroom, fun Q' hposs => ⟨_, hall (Q'.getD n.inQ []) (Q'.getD n.outQ []) hposs, rfl, ?_⟩⟩
  rw [queuesAfter, Act.apply]
  by_cases he : e = []
  · subst he
    simp only [List.append_nil, set_getD_self]
    exact (if_pos rfl).trans (set_getD_self ..)
  · exact if_neg fun h => he (List.append_right_eq_self.mp h)

/-- A delivery takes the front, whatever stands behind it. -/
theorem acts_take {d : Addr} {v : Cell} {rest : List Cell} (hs : n.state = .needsInput d)
    (hq : Q.getD n.inQ [] = v :: rest) (h : stepUnder p (n.machine Q) = .next t) :
    ∃ a, a.Possible p n Q ∧ Acts p n (n.advance (n.machine Q) t) a := by
  rw [stepUnder_delivers (s := n.machine Q) hs hq] at h
  split at h
  · next hheld =>
    cases h
    refine ⟨.take v, by rw [Act.Possible, hq]; rfl, fun Q' hposs => ?_⟩
    obtain ⟨rest', hq'⟩ := List.head?_eq_some_iff.mp hposs
    refine ⟨_, (stepUnder_delivers (s := n.machine Q') hs hq').trans (if_pos hheld), rfl, ?_⟩
    rw [queuesAfter, Act.apply, hq']
    exact if_pos rfl
  · cases h

/-- R84: a core that can move acts. -/
theorem acts_of_step (hlive : n.state.terminal = false) (hfed : ∀ d, n.state = .needsInput d → Q.getD n.inQ [] ≠ [])
    (h : stepUnder p (n.machine Q) = .next t) :
    ∃ a, a.Possible p n Q ∧ Acts p n (n.advance (n.machine Q) t) a := by
  cases hs : n.state with
  | executing => exact acts_put (stepUnder_uniform hs h)
  | hasOutput =>
    rw [stepUnder_hasOutput (s := n.machine Q) hs] at h
    cases h
    exact acts_put (uniform_of_quiet rfl rfl fun iq oq => stepUnder_hasOutput (s := (n.machine Q).withQueues iq oq) hs)
  | needsInput d =>
    obtain ⟨v, rest, hq⟩ := List.exists_cons_of_ne_nil (hfed d hs)
    exact acts_take hs hq h
  | done | faulted c => rw [hs] at hlive; cases hlive

/-! ## Acts of two cores that share no queue end -/

theorem apply_length (a : Act) (n : Node) (Q : List (List Cell)) : (a.apply n Q).length = Q.length := by
  cases a <;> simp [Act.apply]

theorem getD_apply_take (n : Node) (v : Cell) (Q : List (List Cell)) (q : Nat) :
    ((Act.take v).apply n Q).getD q [] = if q = n.inQ then (Q.getD q []).tail else Q.getD q [] := by
  rw [Act.apply, getD_set]
  by_cases hq : q = n.inQ
  · subst hq
    by_cases hlt : n.inQ < Q.length
    · simp [hlt]
    · simp [List.getD_eq_getElem?_getD, hlt]
  · simp [hq]

theorem getD_apply_put (n : Node) (e : List Cell) (Q : List (List Cell)) (hn : n.outQ < Q.length) (q : Nat) :
    ((Act.put e).apply n Q).getD q [] = if q = n.outQ then Q.getD q [] ++ e else Q.getD q [] := by
  rw [Act.apply, getD_set]
  by_cases hq : q = n.outQ
  · subst hq
    simp [hn]
  · simp [hq]

theorem hasRoom_tail {depth : Option Nat} {l : List Cell} (h : hasRoom depth l = true) : hasRoom depth l.tail = true := by
  cases depth with
  | none => rfl
  | some d =>
    rw [hasRoom_some] at h ⊢
    simp only [List.length_tail]
    omega

/-- An act leaves possible what was possible to the other core: it takes nothing that the other would take, and leaves no
less room. -/
theorem possible_apply {r : Params} {a b : Act} (hin : n.inQ ≠ m.inQ) (hout : n.outQ ≠ m.outQ) (hn : n.outQ < Q.length)
    (hb : b.Possible r m Q) : b.Possible r m (a.apply n Q) := by
  cases a with
  | take v =>
    cases b with
    | take w =>
      rw [Act.Possible, getD_apply_take, if_neg hin.symm]
      exact hb
    | put e =>
      intro he
      rw [getD_apply_take]
      split
      · exact hasRoom_tail (hb he)
      · exact hb he
  | put e =>
    cases b with
    | take w =>
      rw [Act.Possible, getD_apply_put n e Q hn]
      split
      · rw [List.head?_append, show (Q.getD m.inQ []).head? = some w from hb]
        rfl
      · exact hb
    | put f =>
      rw [Act.Possible, getD_apply_put n e Q hn, if_neg hout.symm]
      exact hb

theorem ext_getD {Q R : List (List Cell)} (hlen : Q.length = R.length) (h : ∀ q, Q.getD q [] = R.getD q []) : Q = R :=
  List.ext_getElem hlen fun q hQ hR => by simpa [List.getD_eq_getElem?_getD, hQ, hR] using h q

/-- A value taken from a queue that is not empty is not the one appended to it. -/
theorem take_put_comm {v : Cell} (e : List Cell) (hm : m.outQ < Q.length) (hv : (Act.take v).Possible p n Q) :
    (Act.put e).apply m ((Act.take v).apply n Q) = (Act.take v).apply n ((Act.put e).apply m Q) := by
  obtain ⟨rest, hq⟩ := List.head?_eq_some_iff.mp hv
  refine ext_getD (by simp only [apply_length]) fun q => ?_
  rw [getD_apply_put m e _ (by rwa [apply_length]), getD_apply_take, getD_apply_take, getD_apply_put m e Q hm]
  by_cases hin : q = n.inQ
  · subst hin
    simp only [if_true, hq]
    split <;> rfl
  · simp only [if_neg hin]

/-- Acts of two cores that share no queue end commute. -/
theorem apply_comm {r : Params} {a b : Act} (hin : n.inQ ≠ m.inQ) (hout : n.outQ ≠ m.outQ) (hn : n.outQ < Q.length)
    (hm : m.outQ < Q.length) (ha : a.Possible p n Q) (hb : b.Possible r m Q) :
    b.apply m (a.apply n Q) = a.apply n (b.apply m Q) := by
  cases a with
  | take v =>
    cases b with
    | put e => exact take_put_comm e hm ha
    | take w =>
      refine ext_getD (by simp only [apply_length]) fun q => ?_
      simp only [getD_apply_take]
      by_cases h : q = n.inQ
      · simp only [h, if_neg hin]
      · simp only [if_neg h]
  | put e =>
    cases b with
    | take w => exact (take_put_comm e hn hb).symm
    | put f =>
      refine ext_getD (by simp only [apply_length]) fun q => ?_
      simp only [getD_apply_put _ _ _ hn, getD_apply_put _ _ _ hm,
        getD_apply_put _ _ _ (show n.outQ < (Act.apply m (.put f) Q).length by rwa [apply_length]),
        getD_apply_put _ _ _ (show m.outQ < (Act.apply n (.put e) Q).length by rwa [apply_length])]
      by_cases h : q = n.outQ
      · simp only [h, if_neg hout]
      · simp only [if_neg h]

/-! ## The wiring -/

/-- Which queues the cores of a system are attached to. -/
def System.wiring (sys : System) : List (Nat × Nat) := sys.nodes.map fun n => (n.inQ, n.outQ)

theorem depth_eq_of_wiring (h : sys'.wiring = sys.wiring) (p : Params) (q : Nat) : sys'.depth p q = sys.depth p q := by
  have hin : ∀ z : System, z.nodes.any (fun n => n.inQ == q) = z.wiring.any fun e => e.1 == q := fun z => by
    simp [System.wiring, List.any_map, Function.comp_def]
  have hout : ∀ z : System, z.nodes.any (fun n => n.outQ == q) = z.wiring.any fun e => e.2 == q := fun z => by
    simp [System.wiring, List.any_map, Function.comp_def]
  simp only [System.depth, hin, hout, h]

theorem wiring_getElem? {i : Nat} (h : sys'.wiring = sys.wiring) (hn : sys'.nodes[i]? = some n) :
    ∃ m, sys.nodes[i]? = some m ∧ m.inQ = n.inQ ∧ m.outQ = n.outQ := by
  have hw := congrArg (·[i]?) h
  simp only [System.wiring, List.getElem?_map, hn, Option.map_some] at hw
  obtain ⟨m, hm, e⟩ := Option.map_eq_some_iff.mp hw.symm
  obtain ⟨e1, e2⟩ := Prod.mk.inj e
  exact ⟨m, hm, e1, e2⟩

/-- R164: being well wired is about the wiring and the number of queues. -/
theorem wellWired_of_wiring (hw : sys.WellWired) (h : sys'.wiring = sys.wiring)
    (hlen : sys'.queues.length = sys.queues.length) : sys'.WellWired := by
  obtain ⟨hends, hatt⟩ := hw
  refine ⟨fun i j a b hij ha hb => ?_, fun a ha => ?_⟩
  · obtain ⟨a', ha', ei, eo⟩ := wiring_getElem? h ha
    obtain ⟨b', hb', fi, fo⟩ := wiring_getElem? h hb
    have := hends i j a' b' hij ha' hb'
    rwa [sharesEnd, ei, eo, fi, fo] at this
  · obtain ⟨i, hi⟩ := List.mem_iff_getElem?.mp ha
    obtain ⟨a', ha', ei, eo⟩ := wiring_getElem? h hi
    rw [hlen, ← ei, ← eo]
    exact hatt a' (List.mem_of_getElem? ha')

theorem map_set_self {α : Type} (f : Node → α) {l : List Node} (h : l[k]? = some n) : (l.map f).set k (f n) = l.map f := by
  obtain ⟨hlt, rfl⟩ := List.getElem?_eq_some_iff.mp h
  have hget : (l.map f)[k]'(by simpa using hlt) = f l[k] := List.getElem_map ..
  rw [← hget, List.set_getElem_self]

theorem wiring_set {z : System} (hn : z.nodes[k]? = some n) (hi : m.inQ = n.inQ) (ho : m.outQ = n.outQ)
    (Q : List (List Cell)) : System.wiring { nodes := z.nodes.set k m, queues := Q } = z.wiring := by
  simp only [System.wiring, List.map_set, hi, ho]
  exact map_set_self (fun x => (x.inQ, x.outQ)) hn

theorem wellWired_tick (hw : sys.WellWired) (h : sys.tick p k = .next sys') : sys'.WellWired := by
  obtain ⟨n, t, hgo, rfl⟩ := tick_eq_next h
  exact wellWired_of_wiring hw (wiring_set (m := n.advance _ t) hgo.node rfl rfl _) (queuesAfter_length _ _ _ _)

theorem wellWired_runSchedule (hw : sys.WellWired) (schedule : List Nat) : (sys.runSchedule p schedule).WellWired :=
  runSchedule_keeps (fun _ _ _ hw h => wellWired_tick hw h) hw schedule

/-- In a well-wired system R196 refuses nothing. -/
theorem contended_wellWired (hw : sys.WellWired) (hn : sys.nodes[k]? = some n) : sys.contended k n = false :=
  contended_eq_false.mpr fun j m hj hm _ => hw.1 j k m n hj hm hn

/-! ## Cores that can move -/

/-- Core `k` can move: it is `n`, it becomes `m`, and it does the act `a`. -/
structure System.Moves (p : Params) (sys : System) (k : Nat) (n m : Node) (a : Act) : Prop where
  node : sys.nodes[k]? = some n
  live : n.state.terminal = false
  fed : ∀ d, n.state = .needsInput d → ∃ v, (Act.take v).Possible (sys.paramsOf p n) n sys.queues
  possible : a.Possible (sys.paramsOf p n) n sys.queues
  acts : Acts (sys.paramsOf p n) n m a

/-- The system after the move of core `k`. -/
def System.moved (sys : System) (k : Nat) (n m : Node) (a : Act) : System :=
  { nodes := sys.nodes.set k m, queues := a.apply n sys.queues }

theorem sharesEnd_eq_false : sharesEnd n m = false ↔ n.inQ ≠ m.inQ ∧ n.outQ ≠ m.outQ := by
  simp [sharesEnd]

theorem possible_take_iff : (∃ v, (Act.take v).Possible p n Q) ↔ Q.getD n.inQ [] ≠ [] := by
  simp only [Act.Possible]
  cases Q.getD n.inQ [] <;> simp

/-- `System.enabled`, by the state of the core. -/
theorem enabled_iff : sys.enabled p k = true ↔ ∃ n t, sys.nodes[k]? = some n ∧ n.state.terminal = false ∧
    (∀ d, n.state = .needsInput d → sys.queue n.inQ ≠ []) ∧
    stepUnder (sys.paramsOf p n) (sys.view n) = .next t := by
  cases hn : sys.nodes[k]? with
  | none => simp [System.enabled, hn]
  | some n =>
    cases hs : stepUnder (sys.paramsOf p n) (sys.view n) <;> cases hstate : n.state <;>
      simp [System.enabled, hn, hs, hstate, ExecState.terminal]

theorem moves_of_enabled (h : sys.enabled p k = true) : ∃ n m a, sys.Moves p k n m a := by
  obtain ⟨n, t, hn, hlive, hfed, hs⟩ := enabled_iff.mp h
  obtain ⟨a, hposs, hacts⟩ := acts_of_step (Q := sys.queues) hlive hfed hs
  exact ⟨n, _, a, hn, hlive, fun d hd => possible_take_iff.mpr (hfed d hd), hposs, hacts⟩

section Moves
variable {m : Node} {a : Act} (h : sys.Moves p k n m a)
include h

theorem System.Moves.enabled : sys.enabled p k = true := by
  obtain ⟨t, hs, -, -⟩ := h.acts sys.queues h.possible
  exact enabled_iff.mpr ⟨n, t, h.node, h.live, fun d hd => possible_take_iff.mp (h.fed d hd), hs⟩

theorem System.Moves.ends : m.inQ = n.inQ ∧ m.outQ = n.outQ := by
  obtain ⟨t, -, rfl, -⟩ := h.acts sys.queues h.possible
  exact ⟨rfl, rfl⟩

theorem System.Moves.runSchedule_eq (hw : sys.WellWired) : sys.runSchedule p [k] = sys.moved k n m a := by
  obtain ⟨t, hs, hm, hq⟩ := h.acts sys.queues h.possible
  have hgo : sys.CanGo p k n t := ⟨h.node, contended_wellWired hw h.node, hs⟩
  rw [runSchedule_next hgo.tick_eq, System.moved, ← hm, ← hq]
  rfl

/-- A core that can move still can, and does the same, after a move of another. -/
theorem System.Moves.after_other (hw : sys.WellWired) {j : Nat} {n' m' : Node} {b : Act} (hjk : j ≠ k)
    (hj : sys.Moves p j n' m' b) : (sys.moved j n' m' b).Moves p k n m a := by
  obtain ⟨hin, hout⟩ := sharesEnd_eq_false.mp (hw.1 j k n' n hjk hj.node h.node)
  have hlt : n'.outQ < sys.queues.length := (hw.2 n' (List.mem_of_getElem? hj.node)).2
  have hwiring : (sys.moved j n' m' b).wiring = sys.wiring := wiring_set hj.node hj.ends.1 hj.ends.2 _
  have hparams : (sys.moved j n' m' b).paramsOf p n = sys.paramsOf p n := by
    simp only [System.paramsOf, depth_eq_of_wiring hwiring]
  have hkeeps : ∀ {c : Act}, c.Possible (sys.paramsOf p n) n sys.queues →
      c.Possible ((sys.moved j n' m' b).paramsOf p n) n (sys.moved j n' m' b).queues := fun hc => by
    rw [hparams]
    exact possible_apply hin hout hlt hc
  refine ⟨(List.getElem?_set_ne hjk).trans h.node, h.live, fun d hd => ?_, hkeeps h.possible, hparams ▸ h.acts⟩
  obtain ⟨v, hv⟩ := h.fed d hd
  exact ⟨v, hkeeps hv⟩

end Moves

theorem runSchedule_pair (p : Params) (sys : System) (j k : Nat) :
    sys.runSchedule p [j, k] = (sys.runSchedule p [j]).runSchedule p [k] :=
  runSchedule_cons p sys j [k]

/-- Settles O58: what a core that can move does is an act on one of its two queues; the acts of two cores that share no queue
end leave each other possible and commute. -/
theorem distinctCoresCommute : Obligations.DistinctCoresCommute := by
  intro p sys j k hw hjk hj hk
  obtain ⟨n, m, a, hn⟩ := moves_of_enabled hj
  obtain ⟨n', m', b, hn'⟩ := moves_of_enabled hk
  have hwj : (sys.moved j n m a).WellWired := hn.runSchedule_eq hw ▸ wellWired_runSchedule hw [j]
  have hwk : (sys.moved k n' m' b).WellWired := hn'.runSchedule_eq hw ▸ wellWired_runSchedule hw [k]
  obtain ⟨hin, hout⟩ := sharesEnd_eq_false.mp (hw.1 j k n n' hjk hn.node hn'.node)
  rw [runSchedule_pair, runSchedule_pair, hn.runSchedule_eq hw, hn'.runSchedule_eq hw,
    (hn'.after_other hw hjk hn).runSchedule_eq hwj, (hn.after_other hw hjk.symm hn').runSchedule_eq hwk]
  have hnodes := List.set_comm m m' hjk (l := sys.nodes)
  have hqueues := apply_comm hin hout (hw.2 n (List.mem_of_getElem? hn.node)).2
    (hw.2 n' (List.mem_of_getElem? hn'.node)).2 hn.possible hn'.possible
  simp only [System.moved, hnodes, hqueues]

/-- A core that can move still can after another one moved. -/
theorem enabled_after_other (hw : sys.WellWired) (hjk : j ≠ k) (hj : sys.enabled p j = true) (hk : sys.enabled p k = true) :
    (sys.runSchedule p [j]).enabled p k = true := by
  obtain ⟨n, m, a, hn⟩ := moves_of_enabled hj
  obtain ⟨n', m', b, hn'⟩ := moves_of_enabled hk
  rw [hn.runSchedule_eq hw]
  exact (hn'.after_other hw hjk hn).enabled

/-! ## The machines of a system, whichever cores are inside a Step -/

/-- The core, outside a Step. -/
def Node.idle (n : Node) : Node := { n with inStep := false }

theorem machines_getElem? (sys : System) (k : Nat) : sys.machines.nodes[k]? = sys.nodes[k]?.map Node.idle :=
  List.getElem?_map ..

theorem wiring_machines (sys : System) : sys.machines.wiring = sys.wiring := by
  simp [System.wiring, System.machines, Function.comp_def]

theorem wellWired_machines (hw : sys.WellWired) : sys.machines.WellWired :=
  wellWired_of_wiring hw (wiring_machines sys) rfl

theorem paramsOf_machines (p : Params) (sys : System) (n : Node) :
    sys.machines.paramsOf p n.idle = sys.paramsOf p n := by
  simp only [System.paramsOf, depth_eq_of_wiring (wiring_machines sys)]
  rfl

theorem enabled_machines (p : Params) (sys : System) (k : Nat) : sys.machines.enabled p k = sys.enabled p k := by
  rw [System.enabled, System.enabled, machines_getElem?]
  cases sys.nodes[k]? with
  | none => rfl
  | some n => simp only [Option.map_some, paramsOf_machines]; rfl

theorem enabled_congr (h : sys'.machines = sys.machines) (k : Nat) : sys'.enabled p k = sys.enabled p k := by
  rw [← enabled_machines, h, enabled_machines]

theorem quiescent_congr (h : sys'.machines = sys.machines) (hq : sys.Quiescent p) : sys'.Quiescent p :=
  fun k => (enabled_congr h k).trans (hq k)

theorem machines_after (sys : System) (k : Nat) (n : Node) (t : State) :
    (sys.machines.after k n.idle t).machines = (sys.after k n t).machines := by
  simp only [System.machines, System.after, List.map_set, List.map_map]
  rfl

theorem System.CanGo.machines (hw : sys.WellWired) (h : sys.CanGo p k n t) : sys.machines.CanGo p k n.idle t := by
  have hn : sys.machines.nodes[k]? = some n.idle := by rw [machines_getElem?, h.node]; rfl
  exact ⟨hn, contended_wellWired (wellWired_machines hw) hn, by rw [paramsOf_machines]; exact h.step⟩

theorem canGo_of_machines (hw : sys.WellWired) (h : sys.machines.CanGo p k m t) : ∃ n, sys.CanGo p k n t := by
  obtain ⟨n, hn, rfl⟩ := Option.map_eq_some_iff.mp ((machines_getElem? sys k).symm.trans h.node)
  have hs := h.step
  rw [paramsOf_machines] at hs
  exact ⟨n, hn, contended_wellWired hw hn, hs⟩

/-- What a micro-step makes of the machines does not depend on which cores are inside a Step. -/
theorem machines_runSchedule_one (p : Params) (hw : sys.WellWired) (k : Nat) :
    (sys.machines.runSchedule p [k]).machines = (sys.runSchedule p [k]).machines := by
  by_cases h : ∃ n t, sys.CanGo p k n t
  · obtain ⟨n, t, hgo⟩ := h
    rw [runSchedule_next hgo.tick_eq, runSchedule_next (hgo.machines hw).tick_eq, machines_after]
  · have hstays : sys.runSchedule p [k] = sys := runSchedule_stays fun _ ht =>
      let ⟨n, t, hgo, _⟩ := tick_eq_next ht
      h ⟨n, t, hgo⟩
    have hstays' : sys.machines.runSchedule p [k] = sys.machines := runSchedule_stays fun _ ht =>
      let ⟨_, t, hgo, _⟩ := tick_eq_next ht
      let ⟨n, hgo⟩ := canGo_of_machines hw hgo
      h ⟨n, t, hgo⟩
    rw [hstays, hstays']
    simp only [System.machines, List.map_map]
    rfl

/-- A micro-step that leaves a machine as it is leaves them all so. -/
theorem machines_after_self (hn : sys.nodes[k]? = some n) : (sys.after k n (sys.view n)).machines = sys.machines := by
  have hq : queuesAfter sys.queues n (sys.view n) (sys.view n) = sys.queues :=
    (if_pos rfl).trans (set_getD_self sys.queues n.inQ)
  have hnodes : (sys.nodes.set k (n.advance (sys.view n) (sys.view n))).map Node.idle = sys.nodes.map Node.idle := by
    have hidle : (n.advance (sys.view n) (sys.view n)).idle = n.idle := rfl
    rw [List.map_set, hidle, map_set_self Node.idle hn]
  exact congrArg₂ System.mk hnodes hq

/-- A core that cannot move leaves the machines as they are. -/
theorem machines_of_not_enabled (h : sys.enabled p k = false) : (sys.runSchedule p [k]).machines = sys.machines := by
  by_cases ht : ∃ sys', sys.tick p k = .next sys'
  · obtain ⟨sys', ht⟩ := ht
    obtain ⟨n, t, hgo, rfl⟩ := tick_eq_next ht
    have hsame : t = sys.view n := by
      by_contra hne
      refine absurd (enabled_iff.mpr ⟨n, t, hgo.node, ?_, fun d hd hq => ?_, hgo.step⟩) (by simp [h])
      · exact Bool.eq_false_iff.mpr fun hterm => hne (by
          have := hgo.step
          rw [stepUnder_terminal (s := sys.view n) hterm] at this
          cases this
          rfl)
      · have := hgo.step
        rw [stepUnder_waiting (s := sys.view n) hd hq] at this
        cases this
        exact hne rfl
    rw [runSchedule_next ht, hsame, machines_after_self hgo.node]
  · rw [runSchedule_stays fun sys' e => ht ⟨sys', e⟩]

/-- What a schedule makes of the machines is a function of the machines. -/
theorem machines_runSchedule_congr (hw : sys.WellWired) (hw' : sys'.WellWired) (h : sys'.machines = sys.machines)
    (schedule : List Nat) : (sys'.runSchedule p schedule).machines = (sys.runSchedule p schedule).machines := by
  induction schedule generalizing sys sys' with
  | nil => exact h
  | cons k rest ih =>
    rw [runSchedule_cons p sys', runSchedule_cons p sys]
    refine ih (wellWired_runSchedule hw [k]) (wellWired_runSchedule hw' [k]) ?_
    rw [← machines_runSchedule_one p hw', h, machines_runSchedule_one p hw]

/-! ## Interleavings that come to an end -/

/-- No schedule changes the machines of a system in which no core can move. -/
theorem machines_of_quiescent (hq : sys.Quiescent p) (schedule : List Nat) :
    (sys.runSchedule p schedule).machines = sys.machines := by
  induction schedule generalizing sys with
  | nil => rfl
  | cons k rest ih =>
    have hone := machines_of_not_enabled (hq k)
    rw [runSchedule_cons, ih (quiescent_congr hone hq), hone]

/-- A core that can move may move first: the end is the same. -/
theorem exists_schedule_moving_first (hw : sys.WellWired) (hk : sys.enabled p k = true) {schedule : List Nat}
    (hq : (sys.runSchedule p schedule).Quiescent p) :
    ∃ rest, ((sys.runSchedule p [k]).runSchedule p rest).machines = (sys.runSchedule p schedule).machines := by
  induction schedule generalizing sys with
  | nil => exact absurd ((hq k).symm.trans hk) (by decide)
  | cons j rest ih =>
    rw [runSchedule_cons p sys j rest] at hq ⊢
    have hwj := wellWired_runSchedule (p := p) hw [j]
    by_cases hjk : j = k
    · exact ⟨rest, by rw [hjk]⟩
    · cases hj : sys.enabled p j with
      | true =>
        obtain ⟨rest', e⟩ := ih hwj (enabled_after_other hw hjk hj hk) hq
        refine ⟨j :: rest', ?_⟩
        rw [runSchedule_cons p _ j rest', ← runSchedule_pair, ← distinctCoresCommute p sys j k hw hjk hj hk,
          runSchedule_pair, e]
      | false =>
        have hsame := machines_of_not_enabled hj
        obtain ⟨rest', e⟩ := ih hwj ((enabled_congr hsame k).trans hk) hq
        have hmoved := machines_runSchedule_congr (p := p) hw hwj hsame (k :: rest')
        rw [runSchedule_cons p _ k rest', runSchedule_cons p _ k rest'] at hmoved
        exact ⟨rest', hmoved.symm.trans e⟩

/-- Settles O59: by induction on the second interleaving; the core it moves first may move first in the other one too. -/
theorem interleavingDoesNotMatter : Obligations.InterleavingDoesNotMatter := by
  intro p sys first second
  induction second generalizing sys first with
  | nil => exact fun _ _ hq => machines_of_quiescent hq first
  | cons k rest ih =>
    intro hw hq1 hq2
    have hwk := wellWired_runSchedule (p := p) hw [k]
    obtain ⟨first', e⟩ : ∃ first',
        ((sys.runSchedule p [k]).runSchedule p first').machines = (sys.runSchedule p first).machines := by
      cases hk : sys.enabled p k with
      | true => exact exists_schedule_moving_first hw hk hq1
      | false => exact ⟨first, machines_runSchedule_congr hw hwk (machines_of_not_enabled hk) first⟩
    rw [runSchedule_cons] at hq2 ⊢
    rw [← e]
    exact ih _ first' hwk (quiescent_congr e hq1) hq2

end Sys2Proof.Machine
end

section
/-!
PROOFS. Load (`70_reset_and_hazards.md` section 1, R151, R190), of one machine and over a core of a system.
-/

namespace Sys2Proof.Machine

open Sys2Proof

variable {sys : System} {k q : Nat} {n m : Node} {Q : List (List Cell)}

/-! ## The ends attached to a queue -/

/-- How many queue ends of cores other than core `k` are attached to queue `q`. -/
def System.otherEnds (sys : System) (k q : Nat) : Nat :=
  ((sys.nodes.eraseIdx k).map Node.inQ ++ (sys.nodes.eraseIdx k).map Node.outQ).count q

theorem count_map_eraseIdx {f : Node → Nat} {l : List Node} (hn : l[k]? = some n) (q : Nat) :
    (l.map f).count q = (if f n = q then 1 else 0) + ((l.eraseIdx k).map f).count q := by
  obtain ⟨hlt, rfl⟩ := List.getElem?_eq_some_iff.mp hn
  rw [((List.getElem_cons_eraseIdx_perm hlt).map f).symm.count_eq, List.map_cons, List.count_cons]
  simp only [beq_iff_eq]
  omega

theorem ends_eq (hn : sys.nodes[k]? = some n) (q : Nat) :
    sys.ends q = (if n.inQ = q then 1 else 0) + (if n.outQ = q then 1 else 0) + sys.otherEnds k q := by
  rw [System.ends, System.otherEnds, List.count_append, List.count_append, count_map_eraseIdx hn, count_map_eraseIdx hn]
  omega

theorem otherEnds_eq_zero : sys.otherEnds k q = 0 ↔
    ∀ (j : Nat) (x : Node), j ≠ k → sys.nodes[j]? = some x → x.inQ ≠ q ∧ x.outQ ≠ q := by
  simp only [System.otherEnds, List.count_eq_zero, List.mem_append, List.mem_map, List.mem_eraseIdx_iff_getElem?, not_or,
    not_exists, not_and]
  exact ⟨fun ⟨hi, ho⟩ j x hj hx => ⟨hi x ⟨j, hj, hx⟩, ho x ⟨j, hj, hx⟩⟩,
    fun h => ⟨fun x ⟨j, hj, hx⟩ => (h j x hj hx).1, fun x ⟨j, hj, hx⟩ => (h j x hj hx).2⟩⟩

/-- A core whose two ends are one queue wires it. -/
theorem wired_of_loop (hn : sys.nodes[k]? = some n) (hi : n.inQ = q) (ho : n.outQ = q) : sys.wired q = true := by
  have hmem := List.mem_of_getElem? hn
  rw [System.wired, Bool.and_eq_true]
  exact ⟨List.any_eq_true.mpr ⟨n, hmem, by simp [hi]⟩, List.any_eq_true.mpr ⟨n, hmem, by simp [ho]⟩⟩

/-! ## The queue that a Load gives -/

/-- What is to be known of the queue `q'`, and of the queues `R` after it, that a Load of core `k` gives in place of queue
`q` of `Q`. -/
structure System.Gives (sys : System) (k q : Nat) (Q : List (List Cell)) (q' : Nat) (R : List (List Cell)) : Prop where
  length : Q.length ≤ R.length
  inside : q' < R.length
  place : q' = q ∨ Q.length ≤ q'
  kept : ∀ x, x < Q.length → sys.wired q = true ∨ x ≠ q' → R.getD x [] = Q.getD x []
  same : sys.wired q = true → q' = q
  empty : sys.wired q = false → R.getD q' [] = []
  sole : sys.wired q = false → sys.otherEnds k q' = 0

theorem gives_wired (hw : sys.wired q = true) (hq : q < Q.length) : sys.Gives k q Q q Q :=
  ⟨Nat.le_refl _, hq, .inl rfl, fun _ _ _ => rfl, fun _ => rfl, fun h => by simp [hw] at h, fun h => by simp [hw] at h⟩

theorem gives_emptied (hw : sys.wired q = false) (hq : q < Q.length) (h : sys.otherEnds k q = 0) :
    sys.Gives k q Q q (Q.set q []) := by
  refine ⟨by simp, by simpa using hq, .inl rfl, fun x hx hkept => ?_, fun _ => rfl, fun _ => ?_, fun _ => h⟩
  · rw [getD_set, if_neg fun e => (hkept.resolve_left (by simp [hw])) e.1]
  · rw [getD_set, if_pos ⟨rfl, hq⟩]

theorem gives_further (hw : sys.wired q = false) (hatt : sys.Attached) (hlen : sys.queues.length ≤ Q.length) :
    sys.Gives k q Q Q.length (Q ++ [[]]) := by
  refine ⟨by simp, by simp, .inr (Nat.le_refl _), fun x hx _ => ?_, fun h => by simp [hw] at h, fun _ => ?_, fun _ => ?_⟩
  · simp [List.getD_eq_getElem?_getD, List.getElem?_append_left hx]
  · simp [List.getD_eq_getElem?_getD]
  · refine otherEnds_eq_zero.mpr fun j x _ hx => ?_
    have := hatt x (List.mem_of_getElem? hx)
    omega

theorem loadQueue_gives (hatt : sys.Attached) (hn : sys.nodes[k]? = some n) (hq : n.inQ = q ∨ n.outQ = q)
    (hlen : sys.queues.length ≤ Q.length) : sys.Gives k q Q (sys.loadQueue q Q).1 (sys.loadQueue q Q).2 := by
  have hends := hatt n (List.mem_of_getElem? hn)
  have hlt : q < Q.length := by rcases hq with h | h <;> omega
  rw [System.loadQueue]
  cases hw : sys.wired q with
  | true => exact gives_wired hw hlt
  | false =>
    simp only [Bool.false_eq_true, if_false]
    by_cases hone : sys.ends q = 1
    · rw [if_pos hone]
      refine gives_emptied hw hlt ?_
      rw [ends_eq hn] at hone
      rcases hq with h | h <;> rw [if_pos h] at hone <;> omega
    · rw [if_neg hone]
      exact gives_further hw hatt hlen

/-- The two queues given are apart, and an empty one given in place of one end is not the other end. -/
theorem gives_apart {i o : Nat} {R : List (List Cell)} (hatt : sys.Attached) (hn : sys.nodes[k]? = some n)
    (hi : sys.Gives k n.inQ sys.queues i Q) (ho : sys.Gives k n.outQ Q o R) :
    (sys.wired n.inQ = false → n.outQ ≠ i ∧ o ≠ i) ∧ (sys.wired n.outQ = false → n.inQ ≠ o ∧ i ≠ o) := by
  obtain ⟨hinQ, houtQ⟩ := hatt n (List.mem_of_getElem? hn)
  have hlen := hi.length
  have hinside := hi.inside
  have hplaceI := hi.place
  have hplaceO := ho.place
  have hloop : n.inQ = n.outQ → sys.wired n.inQ = true := fun h => wired_of_loop hn rfl h.symm
  constructor
  · intro hw
    have hne : n.inQ ≠ n.outQ := fun h => by simp [hloop h] at hw
    omega
  · intro hw
    have hne : n.inQ ≠ n.outQ := fun h => by simp [← h, hloop h] at hw
    omega

/-- A queue that another core is attached to holds what it held. -/
theorem gives_seen {i o x : Nat} {R : List (List Cell)} (hi : sys.Gives k n.inQ sys.queues i Q)
    (ho : sys.Gives k n.outQ Q o R) (hx : x < sys.queues.length) (hother : ∀ z, sys.otherEnds k z = 0 → x ≠ z) :
    R.getD x [] = sys.queues.getD x [] := by
  rw [ho.kept x (Nat.lt_of_lt_of_le hx hi.length)
      ((Bool.eq_false_or_eq_true _).imp_right fun hw => hother o (ho.sole hw)),
    hi.kept x hx ((Bool.eq_false_or_eq_true _).imp_right fun hw => hother i (hi.sole hw))]

/-! ## Load over a core -/

theorem load_eq (rom : List Cell) {i o : Nat} {R : List (List Cell)} (hn : sys.nodes[k]? = some n) (hin : n.inStep = false)
    (hi : sys.loadQueue n.inQ sys.queues = (i, Q)) (ho : sys.loadQueue n.outQ Q = (o, R)) :
    sys.load rom k = .next { nodes := sys.nodes.set k (Node.loaded rom i o), queues := R } := by
  simp [System.load, System.onCore, System.withCore, hn, hin, hi, ho]

/-- After the Load the queues of the core are its own, but for those of the wiring. -/
theorem ends_loaded (rom : List Cell) {i o : Nat} {R : List (List Cell)} (hn : sys.nodes[k]? = some n) (hio : i ≠ o)
    (hq : i = q ∨ o = q) (h : sys.otherEnds k q = 0) :
    System.ends { nodes := sys.nodes.set k (Node.loaded rom i o), queues := R } q = 1 := by
  have hself : (sys.nodes.set k (Node.loaded rom i o))[k]? = some (Node.loaded rom i o) :=
    List.getElem?_set_self (List.getElem?_eq_some_iff.mp hn).1
  have hothers : System.otherEnds { nodes := sys.nodes.set k (Node.loaded rom i o), queues := R } k q = 0 := by
    simpa only [System.otherEnds, List.eraseIdx_set_eq] using h
  rw [ends_eq (sys := { nodes := _, queues := R }) hself, hothers]
  rcases hq with rfl | rfl
  · simp [Node.loaded, hio.symm]
  · simp [Node.loaded, hio]

theorem load_machine (rom : List Cell) :
    (State.load rom).pc = 0 ∧ (State.load rom).rb = 0 ∧ (State.load rom).state = .executing ∧
    (State.load rom).iq = [] ∧ (State.load rom).oq = [] ∧ (State.load rom).mem.len = rom.length ∧
    (∀ (a : Nat) (v : Cell), rom[a]? = some v → (State.load rom).mem.read a = v) ∧
    ∀ a : Nat, rom.length ≤ a → (State.load rom).mem.read a = 0 := by
  refine ⟨rfl, rfl, rfl, rfl, rfl, rfl, fun a v h => ?_, fun a => read_load_past_rom⟩
  rw [read_load, List.getD_eq_getElem?_getD, h]
  rfl

/-- Settles O12: the reset values are `State.load`'s; over a core of a system each of its two queues is kept with the
wiring, emptied in its place, or replaced by a further one, and no queue that another core sees changes. -/
theorem loadLeavesResetValues : Obligations.LoadLeavesResetValues := by
  refine ⟨load_machine, load_nil.symm, fun rom sys k n hatt hn hin => ?_, fun rom s => rfl⟩
  obtain ⟨i, Q, hi⟩ : ∃ i Q, sys.loadQueue n.inQ sys.queues = (i, Q) := ⟨_, _, rfl⟩
  obtain ⟨o, R, ho⟩ : ∃ o R, sys.loadQueue n.outQ Q = (o, R) := ⟨_, _, rfl⟩
  have gi : sys.Gives k n.inQ sys.queues i Q := by
    simpa only [hi] using loadQueue_gives hatt hn (.inl rfl) (Nat.le_refl sys.queues.length)
  have go : sys.Gives k n.outQ Q o R := by simpa only [ho] using loadQueue_gives hatt hn (.inr rfl) gi.length
  obtain ⟨hapartI, hapartO⟩ := gives_apart hatt hn gi go
  obtain ⟨hinQ, houtQ⟩ := hatt n (List.mem_of_getElem? hn)
  have hiR : i < R.length := Nat.lt_of_lt_of_le gi.inside go.length
  refine ⟨_, Node.loaded rom i o, load_eq rom hn hin hi ho, List.getElem?_set_self (List.getElem?_eq_some_iff.mp hn).1,
    rfl, rfl, rfl, rfl, rfl, fun j hj => List.getElem?_set_ne hj.symm, by simp, fun x hx => ?attached,
    fun j x hj hx => ?others, fun hw => ⟨gi.same hw, ?keptIn⟩, fun hw => ⟨go.same hw, ?keptOut⟩, fun hw => ?emptyIn,
    fun hw => ?emptyOut⟩
  case attached =>
    rcases List.mem_or_eq_of_mem_set hx with hx | rfl
    · have := hatt x hx
      have hgrown : sys.queues.length ≤ R.length := Nat.le_trans gi.length go.length
      exact ⟨by simp only; omega, by simp only; omega⟩
    · exact ⟨hiR, go.inside⟩
  case others =>
    have hx' := hatt x (List.mem_of_getElem? hx)
    exact ⟨gives_seen gi go hx'.1 fun z hz => (otherEnds_eq_zero.mp hz j x hj hx).1,
      gives_seen gi go hx'.2 fun z hz => (otherEnds_eq_zero.mp hz j x hj hx).2⟩
  case keptIn =>
    have hin' : i = n.inQ := gi.same hw
    exact hin' ▸ (go.kept i gi.inside ((Bool.eq_false_or_eq_true _).imp_right fun h => (hapartO h).2)).trans
      (gi.kept i (hin' ▸ hinQ) (.inl hw))
  case keptOut =>
    have hout' : o = n.outQ := go.same hw
    exact hout' ▸ (go.kept o (hout' ▸ Nat.lt_of_lt_of_le houtQ gi.length) (.inl hw)).trans
      (gi.kept o (hout' ▸ houtQ) ((Bool.eq_false_or_eq_true _).imp_right fun h => (hapartI h).2))
  case emptyIn =>
    exact ⟨(go.kept i gi.inside (.inr (hapartI hw).2.symm)).trans (gi.empty hw),
      ends_loaded rom hn (hapartI hw).2.symm (.inl rfl) (gi.sole hw)⟩
  case emptyOut => exact ⟨go.empty hw, ends_loaded rom hn (hapartO hw).2 (.inr rfl) (go.sole hw)⟩

end Sys2Proof.Machine
end
